-- ==== Sys2Proof/Word.lean ====
section
/-! DEFINITION. The words of the NexaCtrl RF protocol encoder: the widths of 00_scope.md R6, R7 and 30_encoding.md R48, R50.
All values are unsigned (R9). -/

namespace Sys2Proof

/-- A numeric command input, `UINT_W` = 32 bits (R7, R48, D3). -/
abbrev Uint := BitVec 32

/-- A command code, the port `cmd_op` (R48, R51). -/
abbrev Op := BitVec 3

/-- The 99-bit command word `CMD` of the opcode table (R50). -/
abbrev CmdWord := BitVec 99

/-- A frame's controller_id field, `W_CTRL` = 26 bits (R6). -/
abbrev CtrlField := BitVec 26

/-- A frame's device_id or dim_level field, `W_DEV` = `W_DIM` = 4 bits (R6). -/
abbrev Nibble := BitVec 4

end Sys2Proof
end

