-- ==== Sys2Proof/Config.lean ====
section
/-! DEFINITION. The implementation parameters of 00_scope.md R7, and the one free value.
The parameters are arguments of a whole run, fixed when the block is built (10_state.md R30, 70_reset_and_hazards.md R125): State
holds them, every step keeps them, and a statement about every state is a statement about every build. -/

namespace Sys2Proof

/-- `DIM_SCALE`: how the dim operand is scaled (30_encoding.md R53 and R54, D7). -/
inductive DimScale where
  /-- The reference behaviour: every level becomes 0 (R53). The default of this hardware. -/
  | literal
  /-- The corrected formula of the source (R54). -/
  | intent
  deriving DecidableEq, Repr

/-- The parameters a build of the block fixes (R7). -/
structure Params where
  /-- `CYCLES_PER_US`, at least 1 (`Params.wellFormed`). -/
  cyclesPerUs : Nat
  /-- `STATUS_EN`: a status-output line is configured. -/
  statusEn : Bool
  /-- `DIM_SCALE`. -/
  dimScale : DimScale
  deriving DecidableEq, Repr

/-- The build `Machine.State.reset` holds. DESIGN CHOICE (notes/assumptions/2.md; unsafe): `CYCLES_PER_US` and
`STATUS_EN` are OPEN, and 1 and 1 are the values the vectors of 95_test_vectors.md name; `LITERAL` is the default of R7. -/
def Params.reference : Params :=
  { cyclesPerUs := 1, statusEn := true, dimScale := .literal }

/-- FREE VALUE (notes/assumptions/6.md): what `cnt` is loaded with at the `n`-th read of an entry the pulse buffer does not
have; `cnt` keeps the low `CNT_W` bits of it. Only a power-up state that has seen no reset can read one
(70_reset_and_hazards.md R119), and the spec then allows any value (93_implementation_defined.md row 7). It has no body:
nothing can be proved of it. -/
opaque Config.absentLoad : Nat → Nat

end Sys2Proof
end

