-- ==== Sys2Proof/Syntax.lean ====
section
/-! DEFINITION. The commands of the block, one constructor for each row of spec/opcode_table.json, each with the operand
fields that 30_encoding.md R51 says the command reads, in the argument order of R62.
A field a command does not read is no part of it (R51, D22). -/

namespace Sys2Proof

inductive Instr where
  /-- `DeviceOn(controllerId, deviceId)`, `op` = 001 (R65). -/
  | deviceOn (ctrl dev : Uint)
  /-- `DeviceOff(controllerId, deviceId)`, `op` = 010 (R66). -/
  | deviceOff (ctrl dev : Uint)
  /-- `GroupOn(controllerId)`, `op` = 011 (R67). -/
  | groupOn (ctrl : Uint)
  /-- `GroupOff(controllerId)`, `op` = 100 (R68). -/
  | groupOff (ctrl : Uint)
  /-- `DeviceDim(controllerId, deviceId, level0to100)`, `op` = 101 (R69). -/
  | deviceDim (ctrl dev level : Uint)
  /-- The reserved command `op` = 000 (R55, R71). -/
  | rsv0
  /-- The reserved command `op` = 110 (R55, R71). -/
  | rsv6
  /-- The reserved command `op` = 111 (R55, R71). -/
  | rsv7
  deriving DecidableEq, Repr

end Sys2Proof
end

