-- ==== Sys2Proof/WellFormed.lean ====
section
/-! DEFINITION. The checks on what a model is given: a command, a build, a command word written as a number. -/

namespace Sys2Proof

/-- A command is well formed for EVERY value of its operands: the source says "inputs are never validated"
(60_exceptions.md R99), and a reserved code is accepted too (30_encoding.md R55). Operand widths are in the types (R48). -/
def Instr.wellFormed : Instr → Bool
  | .deviceOn _ _ => true
  | .deviceOff _ _ => true
  | .groupOn _ => true
  | .groupOff _ => true
  | .deviceDim _ _ _ => true
  | .rsv0 => true
  | .rsv6 => true
  | .rsv7 => true

/-- `CYCLES_PER_US` is an integer, at least 1 (00_scope.md R7). -/
def Params.wellFormed (p : Params) : Bool :=
  decide (1 ≤ p.cyclesPerUs)

/-- A number is a command word when it fits the 99 bits of `CMD` (30_encoding.md R50). -/
def wordWellFormed (w : Nat) : Bool :=
  decide (w < 2 ^ 99)

end Sys2Proof
end

