-- ==== Sys2Proof/Decode.lean ====
section
/-! DEFINITION. The command word of 30_encoding.md R50, the decoder of R51 and R61, and the encoder.
The decoder is total on the 99-bit words: every value of `op` has its row in spec/opcode_table.json. -/

namespace Sys2Proof

/-- `CMD[2:0]`, the port `cmd_op` (R50). -/
def wordOp (w : CmdWord) : Op := w.extractLsb' 0 3

/-- `CMD[34:3]`, the port `cmd_ctrl` (R50). -/
def wordCtrl (w : CmdWord) : Uint := w.extractLsb' 3 32

/-- `CMD[66:35]`, the port `cmd_dev` (R50). -/
def wordDev (w : CmdWord) : Uint := w.extractLsb' 35 32

/-- `CMD[98:67]`, the port `cmd_level` (R50). -/
def wordLevel (w : CmdWord) : Uint := w.extractLsb' 67 32

/-- `CMD` = `level`, `dev`, `ctrl`, `op`, the first the most significant (R50, D4). -/
def cmdWord (op : Op) (ctrl dev level : Uint) : CmdWord :=
  level ++ dev ++ ctrl ++ op

/-- The command of a word: `op` alone selects it (R50, R51, R61), and only the fields R51 lists are read. -/
def decode (w : CmdWord) : Instr :=
  if wordOp w = 0b001#3 then .deviceOn (wordCtrl w) (wordDev w)
  else if wordOp w = 0b010#3 then .deviceOff (wordCtrl w) (wordDev w)
  else if wordOp w = 0b011#3 then .groupOn (wordCtrl w)
  else if wordOp w = 0b100#3 then .groupOff (wordCtrl w)
  else if wordOp w = 0b101#3 then .deviceDim (wordCtrl w) (wordDev w) (wordLevel w)
  else if wordOp w = 0b000#3 then .rsv0
  else if wordOp w = 0b110#3 then .rsv6
  else .rsv7

/-- Why a number is no command word. -/
inductive DecodeError where
  /-- It has a bit at or above bit 99: the port has no such wire (R48, R50). -/
  | wordTooWide
  deriving DecidableEq, Repr

/-- The decoder on a word given as a number, rejecting by name (notes/assumptions/13.md). -/
def decodeNat (w : Nat) : Except DecodeError Instr :=
  if wordWellFormed w then .ok (decode (BitVec.ofNat 99 w)) else .error .wordTooWide

/-- The low `nbits` bits of a table word; the bits above them are 0 (the host's numbering of spec/opcode_table.json). -/
def tableWord (nbits w : Nat) : Nat := w % 2 ^ nbits

/-- What the decoder reads from an instruction whose bits are `w`. -/
def decodeTableWord (nbits w : Nat) : Option Instr :=
  match decodeNat (tableWord nbits w) with
  | .ok i => some i
  | .error _ => none

/-- The `op` value of a command (R51). -/
def Instr.opcode : Instr → Op
  | .deviceOn _ _ => 0b001#3
  | .deviceOff _ _ => 0b010#3
  | .groupOn _ => 0b011#3
  | .groupOff _ => 0b100#3
  | .deviceDim _ _ _ => 0b101#3
  | .rsv0 => 0b000#3
  | .rsv6 => 0b110#3
  | .rsv7 => 0b111#3

/-- The word of a command, with 0 in each field the command does not read (R51: any value may stand there;
notes/assumptions/14.md). -/
def encode : Instr → CmdWord
  | .deviceOn ctrl dev => cmdWord 0b001#3 ctrl dev 0
  | .deviceOff ctrl dev => cmdWord 0b010#3 ctrl dev 0
  | .groupOn ctrl => cmdWord 0b011#3 ctrl 0 0
  | .groupOff ctrl => cmdWord 0b100#3 ctrl 0 0
  | .deviceDim ctrl dev level => cmdWord 0b101#3 ctrl dev level
  | .rsv0 => cmdWord 0b000#3 0 0 0
  | .rsv6 => cmdWord 0b110#3 0 0 0
  | .rsv7 => cmdWord 0b111#3 0 0 0

/-- The bits of `CMD` a command reads: `op`, and the fields of its row of R51. -/
def readMask : Instr → CmdWord
  | .deviceOn _ _ => cmdWord 0b111#3 (BitVec.allOnes 32) (BitVec.allOnes 32) 0
  | .deviceOff _ _ => cmdWord 0b111#3 (BitVec.allOnes 32) (BitVec.allOnes 32) 0
  | .groupOn _ => cmdWord 0b111#3 (BitVec.allOnes 32) 0 0
  | .groupOff _ => cmdWord 0b111#3 (BitVec.allOnes 32) 0 0
  | .deviceDim _ _ _ => cmdWord 0b111#3 (BitVec.allOnes 32) (BitVec.allOnes 32) (BitVec.allOnes 32)
  | .rsv0 => cmdWord 0b111#3 0 0 0
  | .rsv6 => cmdWord 0b111#3 0 0 0
  | .rsv7 => cmdWord 0b111#3 0 0 0

end Sys2Proof
end

