-- ==== Sys2Proof/Machine/State.lean ====
section
/-! DEFINITION. The state of the machine as plain data: the block's registers (10_state.md R17), the build's parameters
(00_scope.md R7) and what the host does at the coming edges (60_exceptions.md R113). -/

namespace Sys2Proof.Machine

/-- `st`, the ten states of the sequencer (10_state.md R20). -/
inductive SeqState where
  /-- `IDLE`: no transmission; the command port is ready. -/
  | idle
  /-- `L1H`: Latch 1, high interval. -/
  | l1h
  /-- `L1L`: Latch 1, low interval. -/
  | l1l
  /-- `L2H`: leading Latch 2, high interval. -/
  | l2h
  /-- `L2L`: leading Latch 2, low interval. -/
  | l2l
  /-- `DH`: data pulse `idx`, high interval. -/
  | dh
  /-- `DL`: data pulse `idx`, low interval. -/
  | dl
  /-- `TH`: trailing Latch 2, high interval. -/
  | th
  /-- `TL`: trailing Latch 2, low interval. -/
  | tl
  /-- `GAP`: inter-repeat gap. -/
  | gap
  deriving DecidableEq, Repr

/-- A low-pulse duration: a pulse sequence is drawn from `T_SHORT` and `T_LONG` (00_scope.md R14, 10_state.md R25).
`LowPulse.us` (Machine/Timing.lean) is the duration in microseconds. DEDUCED (notes/assumptions/7.md): an entry of `buf`
that was never written holds one of the two as well, since an entry is one bit (D13). -/
inductive LowPulse where
  /-- `T_SHORT`, written `S`. -/
  | short
  /-- `T_LONG`, written `L`. -/
  | long
  deriving DecidableEq, Repr

/-- The pulse buffer `buf[0..71]`, `BUF_CAP` = 72 entries in emission order (R6, R25). -/
abbrev PulseBuffer := Vector LowPulse 72

/-- `T_GAP`, the longest segment, in µs (R5, R24). -/
def tGap : Nat := 10000

/-- `CNT_W`, the width of `cnt`: the least that holds `T_GAP * CYCLES_PER_US - 1` (R17, R24). -/
def cntW (p : Params) : Nat := Nat.log2 (tGap * p.cyclesPerUs - 1) + 1

/-- The block's registers: one field for each row of the table of 10_state.md R17, and no others. -/
structure Block where
  /-- The sequencer's state (R20). -/
  st : SeqState
  /-- 0 in the first repeat, 1 in the second (R21). -/
  rep : BitVec 1
  /-- The index of the entry being emitted, 7 bits (R22). -/
  idx : BitVec 7
  /-- The buffer holds 72 valid entries, not 64 (R23). -/
  isDim : Bool
  /-- The segment counter (R24), as a number; `State.cntFits` gives it the `CNT_W` bits of the build
  (notes/assumptions/8.md). -/
  cnt : Nat
  /-- The pulse buffer (R25). -/
  buf : PulseBuffer
  /-- The completion pulse (R27). -/
  doneR : Bool
  /-- The reserved-command pulse (R27). -/
  errR : Bool
  deriving DecidableEq, Repr

/-- The block's inputs of 30_encoding.md R48 in one cycle, sampled at the edge that ends it. -/
structure Pins where
  rst : Bool
  cmdValid : Bool
  cmdOp : Op
  cmdCtrl : Uint
  cmdDev : Uint
  cmdLevel : Uint
  deriving DecidableEq, Repr

/-- What the host does next (60_exceptions.md R113; 30_encoding.md R62). -/
inductive HostMove where
  /-- Hold the pins at these values for one edge: any input the port allows. -/
  | drive (pins : Pins)
  /-- The directive `reset n`: `rst` = 1 for `n` cycles. -/
  | reset (n : Nat)
  /-- The directive `idle n`: `cmd_valid` = 0 for `n` cycles. -/
  | idle (n : Nat)
  /-- The directive `wait_done`: `cmd_valid` = 0 until the cycle in which `done` = 1. -/
  | waitDone
  /-- A command line `.cmd op, ctrl, dev, level`: presented until it is accepted. -/
  | command (op : Op) (ctrl dev level : Uint)
  deriving DecidableEq, Repr

/-- The state of the machine. `script` is the host's part (notes/assumptions/3.md) and `freeReads` the model's own, every
other field the block's. -/
@[ext]
structure State where
  /-- The registers of the block (R17). -/
  blk : Block
  /-- The parameters of the build (R7): no step changes them (R125). -/
  params : Params
  /-- What the host does at the coming edges, the nearest first. -/
  script : List HostMove
  /-- How many free values the run has drawn (notes/assumptions/6.md): no part of the hardware, and no output shows it. -/
  freeReads : Nat
  /-- `cnt` is a register of `CNT_W` bits (R17). -/
  cntFits : blk.cnt < 2 ^ cntW params := by decide
  deriving DecidableEq, Repr

/-- Why the machine stops: there is no such reason. The block has no traps (60_exceptions.md R106), and every edge of every
state has a next state. -/
inductive Fault
  deriving DecidableEq, Repr

/-- Why the model gives a step no meaning. -/
inductive Refusal where
  /-- The instruction has no meaning in the model yet. Raised by a refused arm of `exec` only; there is none. SAFE. -/
  | notModelled (mnemonic : String)
  deriving DecidableEq, Repr

/-- The registers after a reset (10_state.md R31). `buf` is not reset and is unspecified after power-up: DESIGN CHOICE
(notes/assumptions/1.md; unsafe): 275 µs in each entry. -/
def Block.reset : Block where
  st := .idle
  rep := 0
  idx := 0
  isDim := false
  cnt := 0
  buf := Vector.replicate 72 .short
  doneR := false
  errR := false

/-- The machine right after reset, in the build `p`, with a host that presents nothing. -/
def State.resetIn (p : Params) : State :=
  { blk := Block.reset, params := p, script := [], freeReads := 0, cntFits := Nat.two_pow_pos _ }

/-- The machine right after reset (R31), in the build `Params.reference` (notes/assumptions/2.md). -/
def State.reset : State := State.resetIn Params.reference

end Sys2Proof.Machine
end

