-- ==== Sys2Proof/Machine/Timing.lean ====
section
/-! DEFINITION. The protocol constants of 00_scope.md R5 and R6 (`T_GAP` is in Machine/State.lean, as it fixes a width), and
the timing controller's arithmetic (41_transmitter.md R79, 10_state.md R24). -/

namespace Sys2Proof.Machine

/-- `T_SHORT`, in µs (R5). -/
def tShort : Nat := 275
/-- `T_LONG` (R5). -/
def tLong : Nat := 1225
/-- `T_HIGH`, the high interval before every data low pulse (R5). -/
def tHigh : Nat := 275
/-- `L1_HIGH` (R5). -/
def l1High : Nat := 275
/-- `L1_LOW` (R5). -/
def l1Low : Nat := 9900
/-- `L2_HIGH`, leading and trailing (R5). -/
def l2High : Nat := 275
/-- `L2_LOW`, leading and trailing (R5). -/
def l2Low : Nat := 2675

/-- `LEN_PLAIN`, the pulse-sequence entries of a non-dim command (R6). -/
def lenPlain : Nat := 64
/-- `LEN_DIM`, the pulse-sequence entries of a dim command (R6). -/
def lenDim : Nat := 72

/-- The duration in µs that an entry of the pulse buffer is (R14, R25). -/
def LowPulse.us : LowPulse → Nat
  | .short => tShort
  | .long => tLong

/-- `seg(d) = d * CYCLES_PER_US`, the cycles of a segment of `d` µs (R79). -/
def seg (p : Params) (d : Nat) : Nat := d * p.cyclesPerUs

/-- `len`: 72 for a dim command's buffer, 64 otherwise (R23). -/
def Block.len (b : Block) : Nat := if b.isDim then lenDim else lenPlain

/-- `MemRead(BUF, j)` (R12); none beyond the last entry. -/
def PulseBuffer.read (buf : PulseBuffer) (j : Nat) : Option LowPulse := buf[j]?

/-- The writes `MemWrite(BUF, j, P[j])` for every `j` below `len(P)`, all at one edge; the other entries keep their
values (R64, R39, R26). -/
def PulseBuffer.write (buf : PulseBuffer) (P : List LowPulse) : PulseBuffer :=
  Vector.ofFn fun j => (P[j.val]?).getD buf[j]

/-- The duration in µs of the segment the block is in, `d(st)` of R80; none in `IDLE`. In `DL` it is `buf[idx]`. -/
def Block.segmentUs (b : Block) : Option Nat :=
  match b.st with
  | .idle => none
  | .l1h => some l1High
  | .l1l => some l1Low
  | .l2h => some l2High
  | .l2l => some l2Low
  | .dh => some tHigh
  | .dl => (PulseBuffer.read b.buf b.idx.toNat).map LowPulse.us
  | .th => some l2High
  | .tl => some l2Low
  | .gap => some tGap

end Sys2Proof.Machine
end

