-- ==== Sys2Proof/Machine/Flags.lean ====
section
/-! DEFINITION. The event registers. The block has no status flags or condition codes (10_state.md R29); what a command
or a step signals is a one-cycle pulse in `done_r` or `err_r` (R27), and the one event with a cause code (60_exceptions.md
R100). -/

namespace Sys2Proof.Machine

/-- The block's events (R100). -/
inductive Event where
  /-- A reserved command was accepted. -/
  | cmdErr
  deriving DecidableEq, Repr

/-- The cause code of an event (R100). -/
def Event.code : Event → Nat
  | .cmdErr => 1

/-- At every edge but the one that sets it, each pulse register is set to 0 (R27, R90). -/
def Block.clearPulses (b : Block) : Block := { b with doneR := false, errR := false }

/-- `done_r <- 1`, by the move out of the second repeat's gap (R81, R91). -/
def Block.pulseDone (b : Block) : Block := { b with doneR := true, errR := false }

/-- `err_r <- 1` and `done_r <- 0`, by the acceptance of a reserved command (R71, R101). -/
def Block.pulseErr (b : Block) : Block := { b with doneR := false, errR := true }

end Sys2Proof.Machine
end

