-- ==== Sys2Proof/Machine/Operands.lean ====
section
/-! DEFINITION. Operand assembly (30_encoding.md R52 to R54) and field-to-bits conversion (R56). -/

namespace Sys2Proof.Machine

/-- `trunc_N(v) = v mod 2^N` (00_scope.md R11). -/
def trunc (n v : Nat) : Nat := v % 2 ^ n

/-- `ctrl26 = trunc_26(cmd_ctrl)`; the higher bits are ignored (R52). -/
def ctrl26 (ctrl : Uint) : CtrlField := ctrl.setWidth 26

/-- `dev4 = trunc_4(cmd_dev)` (R52). -/
def dev4 (dev : Uint) : Nibble := dev.setWidth 4

/-- The dim operand under `LITERAL`: `trunc_4(cmd_level * (15 div 100))` (R53). -/
def dim4Literal (level : Uint) : Nibble := BitVec.ofNat 4 (level.toNat * (15 / 100))

/-- The dim operand under `INTENT`: `trunc_4((cmd_level * 15) div 100)`, with the product exact (R54). -/
def dim4Intent (level : Uint) : Nibble := BitVec.ofNat 4 (level.toNat * 15 / 100)

/-- The dim operand of the build (R53, R54). -/
def dim4 (p : Params) (level : Uint) : Nibble :=
  match p.dimScale with
  | .literal => dim4Literal level
  | .intent => dim4Intent level

/-- A frame symbol (00_scope.md R14). -/
inductive FrameSym where
  /-- Logical bit 0. -/
  | zero
  /-- Logical bit 1. -/
  | one
  /-- The reserved on/off slot of a dim command (R70). -/
  | dim
  deriving DecidableEq, Repr

/-- The symbol of a logical bit (R14). -/
def FrameSym.ofBit : Bool → FrameSym
  | false => .zero
  | true => .one

/-- `bits_N(v)`: the `N` logical bits of `trunc_N(v)`, most significant first (R56). -/
def bits (n v : Nat) : List FrameSym :=
  (List.range n).map fun i => FrameSym.ofBit ((trunc n v).testBit (n - 1 - i))

/-- The loop of the procedure of R56, from the weight `2^(n-1)` down: subtract on match. -/
def subtractOnMatch : Nat → Nat → List FrameSym
  | 0, _ => []
  | n + 1, r =>
    if 2 ^ n ≤ r then .one :: subtractOnMatch n (r - 2 ^ n) else .zero :: subtractOnMatch n r

/-- The source's procedure for the same sequence, after the truncation of C2 (R56). -/
def bitsByProcedure (n v : Nat) : List FrameSym := subtractOnMatch n (trunc n v)

end Sys2Proof.Machine
end

