-- ==== Sys2Proof/Machine/Frame.lean ====
section
/-! DEFINITION. The frame packer (40_frame_encoder.md R63, 30_encoding.md R57) and the line code (R58, R59). -/

namespace Sys2Proof.Machine

/-- A frame: its symbols in emission order, offset 0 first (R57). -/
abbrev Frame := List FrameSym

/-- The layout of R57: controller_id, group_flag, on_flag, device_id, then what a dim command appends. -/
def frameOf (c : CtrlField) (group on : FrameSym) (d : Nibble) (appended : Frame) : Frame :=
  bits 26 c.toNat ++ [group, on] ++ bits 4 d.toNat ++ appended

/-- `Pack(DeviceOn, c, d, m)` (R63, R65). -/
def packDeviceOn (c : CtrlField) (d : Nibble) : Frame := frameOf c .zero .one d []

/-- `Pack(DeviceOff, c, d, m)` (R63, R66). -/
def packDeviceOff (c : CtrlField) (d : Nibble) : Frame := frameOf c .zero .zero d []

/-- `Pack(GroupOn, c, d, m)`: device_id is 0 (R63, R67). -/
def packGroupOn (c : CtrlField) : Frame := frameOf c .one .one 0 []

/-- `Pack(GroupOff, c, d, m)`: device_id is 0 (R63, R68). -/
def packGroupOff (c : CtrlField) : Frame := frameOf c .one .zero 0 []

/-- `Pack(DeviceDim, c, d, m)`: the on/off slot is `DIM`, and the dim field follows device_id (R63, R69, R70). -/
def packDeviceDim (c : CtrlField) (d m : Nibble) : Frame := frameOf c .zero .dim d (bits 4 m.toNat)

/-- The line code: the two low-pulse durations of a frame symbol (R58). -/
def code : FrameSym → LowPulse × LowPulse
  | .zero => (.short, .long)
  | .one => (.long, .short)
  | .dim => (.short, .short)

/-- `Expand(F)`: the pulse pairs of the symbols, in offset order (R59). -/
def expand (F : Frame) : List LowPulse := F.flatMap fun y => [(code y).1, (code y).2]

/-- The inverse table of the line code; `[L, L]` is never written (R75). A property of the table: the block has no
decoder (C9, D23). -/
def symbolOf : LowPulse → LowPulse → Option FrameSym
  | .short, .long => some .zero
  | .long, .short => some .one
  | .short, .short => some .dim
  | .long, .long => none

/-- The frame of a command in a build, from its operands alone (R63, R64, R77); none for a reserved command (R71). -/
def frame (p : Params) : Instr → Option Frame
  | .deviceOn ctrl dev => some (packDeviceOn (ctrl26 ctrl) (dev4 dev))
  | .deviceOff ctrl dev => some (packDeviceOff (ctrl26 ctrl) (dev4 dev))
  | .groupOn ctrl => some (packGroupOn (ctrl26 ctrl))
  | .groupOff ctrl => some (packGroupOff (ctrl26 ctrl))
  | .deviceDim ctrl dev level => some (packDeviceDim (ctrl26 ctrl) (dev4 dev) (dim4 p level))
  | .rsv0 => none
  | .rsv6 => none
  | .rsv7 => none

/-- The frame word `W32` of R60, a display form no rule reads: bit `31 - k` is the symbol at offset `k`; none for a
frame that is not 32 symbols `ZERO` and `ONE`. -/
def frameWord (F : Frame) : Option Nat :=
  if F.length = 32 ∧ FrameSym.dim ∉ F then
    some (F.foldl (fun w y => 2 * w + (if y = .one then 1 else 0)) 0)
  else none

end Sys2Proof.Machine
end

