-- ==== Sys2Proof/Machine/Ops.lean ====
section
/-! DEFINITION. The named operations of one rising edge of `clk` (41_transmitter.md R90): what the host drives, the three
branches in the order of 60_exceptions.md R105, the acceptance action, the event `CmdErr`, the reset action and the
timing-controller step. -/

namespace Sys2Proof.Machine

/-! ### The host's pins (30_encoding.md R48, R62; 60_exceptions.md R113) -/

/-- The pins of a host that presents nothing: `rst` = 0, `cmd_valid` = 0, the other lines 0 (they are not read then). -/
def Pins.quiet : Pins :=
  { rst := false, cmdValid := false, cmdOp := 0, cmdCtrl := 0, cmdDev := 0, cmdLevel := 0 }

/-- The pins a move drives while it lasts (R62). -/
def HostMove.pins : HostMove → Pins
  | .drive p => p
  | .reset _ => { Pins.quiet with rst := true }
  | .idle _ => Pins.quiet
  | .waitDone => Pins.quiet
  | .command op ctrl dev level =>
    { rst := false, cmdValid := true, cmdOp := op, cmdCtrl := ctrl, cmdDev := dev, cmdLevel := level }

/-- `reset 0` and `idle 0` hold their line for no cycle (R62; notes/assumptions/12.md). -/
def HostMove.lastsNoEdge : HostMove → Bool
  | .reset 0 => true
  | .idle 0 => true
  | _ => false

/-- The moves from the first that lasts at least one edge. -/
def liveMoves (script : List HostMove) : List HostMove := script.dropWhile HostMove.lastsNoEdge

/-- The values on the block's inputs in the current cycle. A host whose script has ended presents nothing
(notes/assumptions/3.md). -/
def State.pins (s : State) : Pins :=
  match liveMoves s.script with
  | [] => Pins.quiet
  | m :: _ => m.pins

/-- The command word on the port (R50): the four fields in parallel. -/
def Pins.word (p : Pins) : CmdWord := cmdWord p.cmdOp p.cmdCtrl p.cmdDev p.cmdLevel

/-- The command presented in the current cycle: one whenever `cmd_valid` = 1. -/
def State.presented (s : State) : Option Instr :=
  if s.pins.cmdValid then some (decode s.pins.word) else none

/-- `cmd_ready = (st == IDLE) and (rst == 0)` (10_state.md R28). -/
def State.cmdReady (s : State) : Bool := s.blk.st = .idle && !s.pins.rst

/-- The edge ending this cycle accepts a command: `cmd_valid` = 1 and `cmd_ready` = 1 (30_encoding.md R49). -/
def State.accepts (s : State) : Bool := s.pins.cmdValid && s.cmdReady

/-- What is left of a move after one edge; none when it has ended. `accepted`: the edge accepted a command; `done`: the
cycle after the edge has `done` = 1 (R62; 95_test_vectors.md section 3). -/
def HostMove.afterEdge (accepted done : Bool) : HostMove → Option HostMove
  | .drive _ => none
  | .reset n => if n ≤ 1 then none else some (.reset (n - 1))
  | .idle n => if n ≤ 1 then none else some (.idle (n - 1))
  | .waitDone => if done then none else some .waitDone
  | .command op ctrl dev level => if accepted then none else some (.command op ctrl dev level)

/-- The host's script after one edge. -/
def scriptAfter (accepted done : Bool) (script : List HostMove) : List HostMove :=
  match liveMoves script with
  | [] => []
  | m :: rest => (m.afterEdge accepted done).toList ++ rest

/-- The host's part of a step: from the state before the edge and what the block did at it, the script moves on. A stop
stays a stop (there is none). -/
def State.hostTurn (s : State) : Host.Outcome State Fault Refusal → Host.Outcome State Fault Refusal
  | .next t => .next { t with script := scriptAfter s.accepts t.blk.doneR s.script }
  | .fault r => .fault r
  | .refused r => .refused r

/-! ### The block's actions at an edge -/

/-- The reset action: every register but `buf` (70_reset_and_hazards.md R116). -/
def Block.resetAction (b : Block) : Block :=
  { st := .idle, rep := 0, idx := 0, isDim := false, cnt := 0, buf := b.buf, doneR := false, errR := false }

/-- The acceptance action of a valid command with frame `F` (40_frame_encoder.md R64). -/
def Block.accept (p : Params) (isDim : Bool) (F : Frame) (b : Block) : Block :=
  { st := .l1h, rep := 0, idx := 0, isDim := isDim, cnt := seg p l1High - 1,
    buf := PulseBuffer.write b.buf (expand F), doneR := false, errR := false }

/-- The load of `cnt` for the low interval about to begin, `seg(MemRead(BUF, idx)) - 1` (R86). An index beyond the buffer
loads `free`. -/
def Block.pulseLoad (p : Params) (free : Nat) (b : Block) : Nat :=
  match PulseBuffer.read b.buf b.idx.toNat with
  | some d => seg p d.us - 1
  | none => free

/-- The move at the end of a segment, the table of 41_transmitter.md R81. `IDLE` has no segment, so nothing moves there. The
pulse registers are the caller's. -/
def Block.segmentEnd (p : Params) (free : Nat) (b : Block) : Block :=
  match b.st with
  | .idle => b
  | .l1h => { b with st := .l1l, cnt := seg p l1Low - 1 }
  | .l1l => { b with st := .l2h, cnt := seg p l2High - 1 }
  | .l2h => { b with st := .l2l, cnt := seg p l2Low - 1 }
  | .l2l => { b with st := .dh, idx := 0, cnt := seg p tHigh - 1 }
  | .dh => { b with st := .dl, cnt := b.pulseLoad p free }
  | .dl =>
    if b.idx.toNat + 1 < b.len then { b with st := .dh, idx := b.idx + 1, cnt := seg p tHigh - 1 }
    else { b with st := .th, cnt := seg p l2High - 1 }
  | .th => { b with st := .tl, cnt := seg p l2Low - 1 }
  | .tl => { b with st := .gap, cnt := seg p tGap - 1 }
  | .gap =>
    if b.rep = 0 then { b with st := .l1h, rep := 1, cnt := seg p l1High - 1 }
    else { b.pulseDone with st := .idle }

/-- One edge of a transmission in progress: the last branch of R90. -/
def Block.tick (p : Params) (free : Nat) (b : Block) : Block :=
  if b.cnt ≠ 0 then { b.clearPulses with cnt := b.cnt - 1 }
  else b.clearPulses.segmentEnd p free

/-- This edge of a transmission reads an entry the buffer does not have (R34: no such index is ever formed; a power-up
register can hold one, R119). -/
def Block.readsAbsent (b : Block) : Bool := b.cnt = 0 && b.st = .dh && 72 ≤ b.idx.toNat

/-- The machine with new registers: the one place where the block is written. `cnt` keeps its `CNT_W` bits (00_scope.md R11);
no rule ever assigns it more (R24), as `setBlk_of_fits` says. -/
def State.setBlk (s : State) (b : Block) : State :=
  { s with
    blk := { b with cnt := b.cnt % 2 ^ cntW s.params }
    cntFits := Nat.mod_lt _ (Nat.two_pow_pos _) }

/-- The timing-controller step of the machine. Where the entry is absent, `cnt` gets a fresh free value (notes/assumptions/6.md). -/
def State.tick (s : State) : State :=
  { s.setBlk (s.blk.tick s.params (Config.absentLoad s.freeReads)) with
    freeReads := if s.blk.readsAbsent then s.freeReads + 1 else s.freeReads }

/-- The machine after the reset action. -/
def State.resetAction (s : State) : State := s.setBlk s.blk.resetAction

/-- The machine after the acceptance of a valid command with frame `F`. -/
def State.accept (isDim : Bool) (F : Frame) (s : State) : State := s.setBlk (s.blk.accept s.params isDim F)

/-- TAKING THE EVENT `CmdErr`, the block's one exception: `err_r <- 1`, `done_r <- 0`, and nothing else (R71, R101).
Nothing is saved and there is no return from it: `err_r` is 0 again at the next edge by itself (R101, R106, R107). -/
def State.raiseCmdErr (s : State) : State := s.setBlk s.blk.pulseErr

/-- The `IDLE` branch of R90 with nothing presented. -/
def State.stayIdle (s : State) : State := s.setBlk s.blk.clearPulses

/-- One rising edge, by the priority of 60_exceptions.md R105: (1) reset; (2) in `IDLE`, `onIdle`; (3) otherwise the
timing-controller step: a command presented meanwhile is held off (R102). -/
def State.edge (s : State) (onIdle : State → State) : Host.Outcome State Fault Refusal :=
  .next (if s.pins.rst then s.resetAction else if s.blk.st = .idle then onIdle s else s.tick)

/-- The edge of a cycle in which no command is presented (`cmd_valid` = 0). -/
def edgeWithoutCommand (s : State) : Host.Outcome State Fault Refusal := s.edge State.stayIdle

/-- The pins that present the command word `w`. -/
def Pins.ofWord (w : CmdWord) : Pins :=
  { rst := false, cmdValid := true, cmdOp := wordOp w, cmdCtrl := wordCtrl w, cmdDev := wordDev w,
    cmdLevel := wordLevel w }

/-- `s` with a block that is `IDLE` and a host that presents `w` at the next edge and then goes on with its script: the
command is accepted at the very next edge (R49; notes/assumptions/4.md). -/
def State.presentNext (s : State) (w : CmdWord) : State :=
  { s with blk := { s.blk with st := .idle }, script := .drive (Pins.ofWord w) :: s.script }

end Sys2Proof.Machine
end

