-- ==== Sys2Proof/Machine/Device.lean ====
section
/-! DEFINITION. The device commands (40_frame_encoder.md R65, R66). A meaning is the whole edge at which the command is
presented on the port (notes/assumptions/5.md): reset wins, a transmission in progress holds the command off, and in `IDLE`
it is accepted. -/

namespace Sys2Proof.Machine

/-- `DeviceOn(controllerId, deviceId)` (R65). -/
def execDeviceOn (ctrl dev : Uint) (s : State) : Host.Outcome State Fault Refusal :=
  s.edge (State.accept false (packDeviceOn (ctrl26 ctrl) (dev4 dev)))

/-- `DeviceOff(controllerId, deviceId)` (R66). -/
def execDeviceOff (ctrl dev : Uint) (s : State) : Host.Outcome State Fault Refusal :=
  s.edge (State.accept false (packDeviceOff (ctrl26 ctrl) (dev4 dev)))

end Sys2Proof.Machine
end

