-- ==== Sys2Proof/Machine/Dim.lean ====
section
/-! DEFINITION. The dim command (40_frame_encoder.md R69, R70). -/

namespace Sys2Proof.Machine

/-- `DeviceDim(controllerId, deviceId, level0to100)` (R69): the level is scaled as the build says (R53, R54). -/
def execDeviceDim (ctrl dev level : Uint) (s : State) : Host.Outcome State Fault Refusal :=
  s.edge (State.accept true (packDeviceDim (ctrl26 ctrl) (dev4 dev) (dim4 s.params level)))

end Sys2Proof.Machine
end

