-- ==== Sys2Proof/Machine/Group.lean ====
section
/-! DEFINITION. The group commands (40_frame_encoder.md R67, R68). -/

namespace Sys2Proof.Machine

/-- `GroupOn(controllerId)` (R67). -/
def execGroupOn (ctrl : Uint) (s : State) : Host.Outcome State Fault Refusal :=
  s.edge (State.accept false (packGroupOn (ctrl26 ctrl)))

/-- `GroupOff(controllerId)` (R68). -/
def execGroupOff (ctrl : Uint) (s : State) : Host.Outcome State Fault Refusal :=
  s.edge (State.accept false (packGroupOff (ctrl26 ctrl)))

end Sys2Proof.Machine
end

