-- ==== Sys2Proof/Machine/Reserved.lean ====
section
/-! DEFINITION. The reserved commands (40_frame_encoder.md R71, 60_exceptions.md R101): accepted and dropped, with the
event `CmdErr`. -/

namespace Sys2Proof.Machine

/-- `op` = 000 (R71). -/
def execRsv0 (s : State) : Host.Outcome State Fault Refusal := s.edge State.raiseCmdErr

/-- `op` = 110 (R71). -/
def execRsv6 (s : State) : Host.Outcome State Fault Refusal := s.edge State.raiseCmdErr

/-- `op` = 111 (R71). -/
def execRsv7 (s : State) : Host.Outcome State Fault Refusal := s.edge State.raiseCmdErr

end Sys2Proof.Machine
end

