-- ==== Sys2Proof/Machine/Dispatch.lean ====
section
/-! DEFINITION. One arm for each command: the edge at which it is presented (41_transmitter.md R90). -/

namespace Sys2Proof.Machine

def exec (i : Instr) (s : State) : Host.Outcome State Fault Refusal :=
  match i with
  | .deviceOn ctrl dev => Sys2Proof.Machine.execDeviceOn ctrl dev s
  | .deviceOff ctrl dev => Sys2Proof.Machine.execDeviceOff ctrl dev s
  | .groupOn ctrl => Sys2Proof.Machine.execGroupOn ctrl s
  | .groupOff ctrl => Sys2Proof.Machine.execGroupOff ctrl s
  | .deviceDim ctrl dev level => Sys2Proof.Machine.execDeviceDim ctrl dev level s
  | .rsv0 => Sys2Proof.Machine.execRsv0 s
  | .rsv6 => Sys2Proof.Machine.execRsv6 s
  | .rsv7 => Sys2Proof.Machine.execRsv7 s

end Sys2Proof.Machine
end

