-- ==== Sys2Proof/Machine/Outputs.lean ====
section
/-! DEFINITION. The block's outputs as functions of the state (10_state.md R28; 41_transmitter.md R80). `cmd_ready` is
`State.cmdReady` of Machine/Ops.lean. -/

namespace Sys2Proof.Machine

/-- The line level of a sequencer state (R28, R80). -/
def SeqState.level : SeqState → Bool
  | .l1h => true
  | .l2h => true
  | .dh => true
  | .th => true
  | .idle => false
  | .l1l => false
  | .l2l => false
  | .dl => false
  | .tl => false
  | .gap => false

/-- The sequencer states of a repeat without its gap, in which the indicator is asserted (R28, R92). -/
def SeqState.indicated : SeqState → Bool
  | .l1h => true
  | .l1l => true
  | .l2h => true
  | .l2l => true
  | .dh => true
  | .dl => true
  | .th => true
  | .tl => true
  | .idle => false
  | .gap => false

/-- `tx_out`, the keying line: 1 = drive the line high (R28, R93). -/
def State.txOut (s : State) : Bool := s.blk.st.level

/-- `status`, the indicator (R28, R92). -/
def State.status (s : State) : Bool := s.params.statusEn && s.blk.st.indicated

/-- `irq_mask`: 1 = interrupt delivery suspended (R28, R104). -/
def State.irqMask (s : State) : Bool := s.blk.st ≠ .idle

/-- `busy` (R28). -/
def State.busy (s : State) : Bool := s.blk.st ≠ .idle

/-- `done` (R28, R91). -/
def State.done (s : State) : Bool := s.blk.doneR

/-- `cmd_err` (R28, R101). -/
def State.cmdErr (s : State) : Bool := s.blk.errR

/-- The event signalled in this cycle, with its cause code in `Event.code` (R100). -/
def State.event (s : State) : Option Event := if s.cmdErr then some .cmdErr else none

/-- What the host's interrupt controller delivers, given its own enable:
`host_global_enable and not irq_mask` (60_exceptions.md R104). The enable is the host's, not the block's (R4.5). -/
def State.hostInterruptsDelivered (s : State) (hostGlobalEnable : Bool) : Bool :=
  hostGlobalEnable && !s.irqMask

/-- All the outputs of one cycle (R28), the observation of a cycle-level model (00_scope.md R16). -/
structure Outputs where
  txOut : Bool
  status : Bool
  irqMask : Bool
  busy : Bool
  cmdReady : Bool
  done : Bool
  cmdErr : Bool
  deriving DecidableEq, Repr

/-- The outputs during the current cycle (R13, R28). -/
def State.outputs (s : State) : Outputs :=
  { txOut := s.txOut, status := s.status, irqMask := s.irqMask, busy := s.busy, cmdReady := s.cmdReady,
    done := s.done, cmdErr := s.cmdErr }

end Sys2Proof.Machine
end

