-- ==== Sys2Proof/Machine/Step.lean ====
section
/-! DEFINITION. One step: one rising edge of `clk` (41_transmitter.md R90), then the host's script moves on.
The command on the port is decoded and executed; with `cmd_valid` = 0 the edge has no command. -/

namespace Sys2Proof.Machine

def step (s : State) : Host.Outcome State Fault Refusal :=
  match s.presented with
  | some i => s.hostTurn (exec i s)
  | none => s.hostTurn (edgeWithoutCommand s)

/-- `s` with the instruction whose bits are `w` on the command port of an `IDLE` block: the next step accepts it. The block
fetches no instructions (10_state.md R19); this stands for the host presenting a command (notes/assumptions/4.md). -/
def State.withFetchWord (s : State) (nbits w : Nat) : State :=
  s.presentNext (BitVec.ofNat 99 (tableWord nbits w))

end Sys2Proof.Machine
end

