-- ==== Sys2Proof/Machine/Waveform.lean ====
section
/-! DEFINITION. The waveform of a transmission as a list of segments (41_transmitter.md R96 to R98): what a claim about
`tx_out` is stated against. The step does not use it. -/

namespace Sys2Proof.Machine

/-- A waveform segment `(level, µs)` (R96). -/
structure Segment where
  level : Bool
  us : Nat
  deriving DecidableEq, Repr

/-- `Data(P)`: before each low pulse a high interval of 275 µs (R96, R86). -/
def dataWave (P : List LowPulse) : List Segment :=
  P.flatMap fun d => [⟨true, tHigh⟩, ⟨false, d.us⟩]

/-- `RepeatWave(P)` (R96). -/
def repeatWave (P : List LowPulse) : List Segment :=
  [⟨true, l1High⟩, ⟨false, l1Low⟩, ⟨true, l2High⟩, ⟨false, l2Low⟩] ++ dataWave P ++
    [⟨true, l2High⟩, ⟨false, l2Low⟩, ⟨false, tGap⟩]

/-- `Wave(P)`: the repeat, twice (R96). -/
def wave (P : List LowPulse) : List Segment := repeatWave P ++ repeatWave P

/-- The sum of the durations of a waveform, in µs (R96, R98). -/
def waveUs (w : List Segment) : Nat := (w.map Segment.us).sum

/-- `T`, the cycles of a transmission (R96). -/
def waveCycles (p : Params) (P : List LowPulse) : Nat := p.cyclesPerUs * waveUs (wave P)

/-- The level of the line in each cycle: each segment held for `seg(µs)` cycles, in order (R96). -/
def cycleLevels (p : Params) (w : List Segment) : List Bool :=
  w.flatMap fun g => List.replicate (seg p g.us) g.level

/-- The waveform of `status` in one repeat: `STATUS_EN` in every segment but the last, 0 in the gap (R96, R92). -/
def repeatStatus (p : Params) (P : List LowPulse) : List Segment :=
  ((repeatWave P).dropLast.map fun g => ⟨p.statusEn, g.us⟩) ++ [⟨false, tGap⟩]

/-- The waveform of `status` over a transmission (R96). -/
def statusWave (p : Params) (P : List LowPulse) : List Segment := repeatStatus p P ++ repeatStatus p P

/-- The rising edges of a level sequence that starts from a low line (R97). -/
def risingEdges (w : List Segment) : Nat :=
  ((false :: w.map Segment.level).zip (w.map Segment.level)).countP fun q => !q.1 && q.2

end Sys2Proof.Machine
end

