-- ==== Sys2Proof/Safety.lean ====
section
/-! DEFINITION. What counts as a good state and a good run, and the terms the obligations are stated in. -/

namespace Sys2Proof.Machine

/-- `k` steps; none when one of them stops. -/
def runFor : Nat → State → Option State
  | 0, s => some s
  | k + 1, s =>
    match step s with
    | .next t => runFor k t
    | .fault _ => none
    | .refused _ => none

/-- `rst` = 0 at each of the next `k` edges. -/
def NoResetFor (k : Nat) (s : State) : Prop :=
  ∀ j t, j < k → runFor j s = some t → t.pins.rst = false

/-- The states in which `idx` is meaningful (10_state.md R22). -/
def SeqState.isData : SeqState → Bool
  | .dh => true
  | .dl => true
  | .idle => false
  | .l1h => false
  | .l1l => false
  | .l2h => false
  | .l2l => false
  | .th => false
  | .tl => false
  | .gap => false

/-- The invariant of every state after a reset: the states in which every rule of the spec applies.
A power-up state need not satisfy it (70_reset_and_hazards.md R119). That `cnt` fits `CNT_W` bits holds in every state
(`State.cntFits`). -/
structure Inv (s : State) : Prop where
  /-- `CYCLES_PER_US` is at least 1 (R7). -/
  build : s.params.wellFormed = true
  /-- `0 <= idx < len` in `DH` and `DL` (R22, R86). -/
  index : s.blk.st.isData = true → s.blk.idx.toNat < s.blk.len
  /-- In a segment of `d` µs, `cnt` is at most `seg(d) - 1` (R17, R24). -/
  segment : ∀ d, s.blk.segmentUs = some d → s.blk.cnt < seg s.params d
  /-- `done` = 1 only in an `IDLE` cycle (R91). -/
  donePulse : s.blk.doneR = true → s.blk.st = .idle
  /-- `cmd_err` = 1 only in an `IDLE` cycle (R101). -/
  errPulse : s.blk.errR = true → s.blk.st = .idle
  /-- `done` and `cmd_err` are never 1 in the same cycle (R105). -/
  pulses : ¬ (s.blk.doneR = true ∧ s.blk.errR = true)

/-- Frame offset `k` of the buffer holds the pulse pair of `y`: entries `2k` and `2k+1` (R58, R59). -/
def PairAt (buf : PulseBuffer) (k : Nat) (y : FrameSym) : Prop :=
  PulseBuffer.read buf (2 * k) = some (code y).1 ∧ PulseBuffer.read buf (2 * k + 1) = some (code y).2

/-- `t` is `s` but for its registers. -/
structure SameOutsideBlock (s t : State) : Prop where
  params : t.params = s.params
  script : t.script = s.script
  freeReads : t.freeReads = s.freeReads

/-- The acceptance action of R64 took `s` to `t`, but for what it wrote into `buf`: every other register, and everything
outside the block unchanged. -/
structure AcceptedFrom (s t : State) (isDim : Bool) : Prop where
  registers : t.blk =
    { st := .l1h, rep := 0, idx := 0, isDim := isDim, cnt := 275 * s.params.cyclesPerUs - 1, buf := t.blk.buf,
      doneR := false, errR := false }
  outside : SameOutsideBlock s t

/-- The block after a step that moves the sequencer: the state, the index and the repeat given, `cnt` loaded for a
segment of `d` µs, the pulses 0, the rest kept. -/
def Block.movedTo (b : Block) (p : Params) (st : SeqState) (d : Nat) (idx : BitVec 7) (rep : BitVec 1) : Block :=
  { b with st := st, cnt := d * p.cyclesPerUs - 1, idx := idx, rep := rep, doneR := false, errR := false }

/-- Two machines that differ at most in buffer entries no rule reads: in a transmission the entries at or beyond `len`, in
`IDLE` any entry (10_state.md R26, R32). -/
structure SameButStale (s u : State) : Prop where
  registers : { s.blk with buf := u.blk.buf } = u.blk
  params : s.params = u.params
  script : s.script = u.script
  freeReads : s.freeReads = u.freeReads
  entries : s.blk.st ≠ .idle →
    ∀ j, j < s.blk.len → PulseBuffer.read s.blk.buf j = PulseBuffer.read u.blk.buf j

/-- The low time of a pulse sequence in µs (R76). -/
def lowTime (P : List LowPulse) : Nat := (P.map LowPulse.us).sum

/-- The commands that start a transmission: `op` 001 to 101 (R64, R99). -/
def startsTransmission (i : Instr) : Bool :=
  1 ≤ i.opcode.toNat && i.opcode.toNat ≤ 5

/-- The commands that send a dim frame: `op == DeviceDim` (R64, R73). -/
def sendsDim (i : Instr) : Bool := i.opcode = 0b101#3

end Sys2Proof.Machine
end

