-- ==== Sys2Proof/Certificates/Slice0/Obligations.lean ====
section
/-! DEFINITION. The statements for the provers, from the numbered rules of spec/. Each docstring names the rule; a rule the
spec itself marks as derived is named with its section, and its statement has basis 'derived' in OBLIGATIONS.json. -/

open Sys2Proof Sys2Proof.Machine

/-! ## Encoding and decoding -/

/-- Every command is the decoding of its own word, with every operand at every value (30_encoding.md section 1). -/
def Obligations.DecodeOfEncode : Prop :=
  ∀ i : Instr, decode (encode i) = i

/-- Every word that decodes to a command carries that command's word in the bits the command reads: no bit is dropped and
none is taken from a field it does not read (30_encoding.md section 1). That `encode` puts 0 into the fields the command
does not read is the model's choice (notes/assumptions/14.md): R51 allows any value there. -/
def Obligations.EncodeOfDecode : Prop :=
  ∀ w : CmdWord, encode (decode w) = w &&& readMask (decode w)

/-- The command codes of R51, with a field a command does not read at any value. -/
def Obligations.CommandCodes : Prop :=
  ∀ ctrl dev level : Uint,
    decode (cmdWord 0b000#3 ctrl dev level) = .rsv0 ∧
    decode (cmdWord 0b001#3 ctrl dev level) = .deviceOn ctrl dev ∧
    decode (cmdWord 0b010#3 ctrl dev level) = .deviceOff ctrl dev ∧
    decode (cmdWord 0b011#3 ctrl dev level) = .groupOn ctrl ∧
    decode (cmdWord 0b100#3 ctrl dev level) = .groupOff ctrl ∧
    decode (cmdWord 0b101#3 ctrl dev level) = .deviceDim ctrl dev level ∧
    decode (cmdWord 0b110#3 ctrl dev level) = .rsv6 ∧
    decode (cmdWord 0b111#3 ctrl dev level) = .rsv7

/-- The bits of `CMD` that R50 gives each field, and that `op` alone selects the command. -/
def Obligations.WordFieldsAndSelection : Prop :=
  (∀ (op : Op) (ctrl dev level : Uint) (j : Nat),
    (cmdWord op ctrl dev level).getLsbD j =
      if j < 3 then op.getLsbD j
      else if j < 35 then ctrl.getLsbD (j - 3)
      else if j < 67 then dev.getLsbD (j - 35)
      else level.getLsbD (j - 67)) ∧
  ∀ w : CmdWord, ∀ j, j < 3 → (decode w).opcode.getLsbD j = w.getLsbD j

/-- A few words written out from R50 and R51 decode to the commands they stand for (sanity). -/
def Obligations.SampleWordsDecode : Prop :=
  decode 0x0000000000000001800000009#99 = .deviceOn 1 3 ∧
  decode 0x000000000000000180000000A#99 = .deviceOff 1 3 ∧
  decode 0x000000000000000000000002B#99 = .groupOn 5 ∧
  decode 0x0000000000000000000000004#99 = .groupOff 0 ∧
  decode 0x000000320000000100000002D#99 = .deviceDim 5 2 100 ∧
  decode 0x000000000000000180000000E#99 = .rsv6

/-! ## The step and the command port -/

/-- A command on the port is decoded and executed by the step; the step adds the host's turn: the script moves on. -/
def Obligations.StepRunsPresentedCommand : Prop :=
  ∀ (s : State) (i : Instr), s.pins.cmdValid = true → decode s.pins.word = i →
    ∃ t, exec i s = .next t ∧
      step s = .next { t with script := scriptAfter s.accepts t.blk.doneR s.script }

/-- The model's construction `presentNext` (notes/assumptions/4.md, the model's choice: it puts `st` to `IDLE` and a host
that presents the word with `rst` = 0 at the head of the script) does what it is for: the port carries the word in the
current cycle, and the edge that ends the cycle accepts it. -/
def Obligations.PresentedWordIsAccepted : Prop :=
  ∀ (s : State) (w : CmdWord),
    (s.presentNext w).pins.word = w ∧ (s.presentNext w).presented = some (decode w) ∧
    (s.presentNext w).accepts = true

/-- R49: a command is accepted exactly when `rst` = 0, `st` = `IDLE` and `cmd_valid` = 1; every `cmd_op` is, the reserved
values included; and what is presented while `cmd_ready` = 0 stays presented, for a host that holds it. -/
def Obligations.AcceptanceCondition : Prop :=
  (∀ s : State, s.accepts = true ↔
    s.pins.rst = false ∧ s.blk.st = .idle ∧ s.pins.cmdValid = true) ∧
  (∀ (s : State) (op : Op) (ctrl dev level : Uint) (rest : List HostMove),
    s.script = .command op ctrl dev level :: rest →
    (s.accepts = true ↔ s.cmdReady = true) ∧
    ∀ t, step s = .next t → t.script = if s.cmdReady then rest else s.script)

/-- In `IDLE` with no reset and no command, an edge clears the two pulses and changes nothing else (the inner `else` of
the `IDLE` branch of 41_transmitter.md R90); the host's script moves on. -/
def Obligations.IdleEdgeClearsPulses : Prop :=
  ∀ s : State, s.pins.rst = false → s.blk.st = .idle → s.pins.cmdValid = false →
    ∃ t, step s = .next t ∧ t.blk = { s.blk with doneR := false, errR := false } ∧ t.params = s.params ∧
      t.script = scriptAfter false false s.script ∧ t.freeReads = s.freeReads

/-- Presenting any command while a transmission is in progress does what presenting none does: it is neither accepted,
nor dropped, nor signalled (60_exceptions.md R102). A host that keeps presenting it (a command line) still presents it
after the edge, and it is accepted at the first edge with `st` = `IDLE` and `rst` = 0. -/
def Obligations.BusyBlockHoldsCommandOff : Prop :=
  (∀ (i : Instr) (s : State), s.blk.st ≠ .idle →
    s.cmdReady = false ∧ s.accepts = false ∧ exec i s = edgeWithoutCommand s ∧
    ∀ t, exec i s = .next t → t.blk.errR = false ∧ t.blk.buf = s.blk.buf) ∧
  ∀ (op : Op) (ctrl dev level : Uint) (rest : List HostMove) (s : State),
    s.script = .command op ctrl dev level :: rest →
    (s.blk.st ≠ .idle → ∀ t, step s = .next t → t.script = s.script) ∧
    (s.blk.st = .idle → s.accepts = true ∧ s.presented = some (decode (cmdWord op ctrl dev level)))

/-- No input other than `rst` changes the course of a transmission. Two machines with the same registers and parameters, both
in a transmission, get the same registers at an edge whatever their ports carry, if `rst` is equal. (`freeReads` is no
input: equal counts make a free value, which only a read beyond the buffer draws, the same in both;
notes/assumptions/6.md.) -/
def Obligations.InputsIgnoredWhileBusy : Prop :=
  ∀ s u t v : State, s.blk = u.blk → s.params = u.params → s.freeReads = u.freeReads → s.blk.st ≠ .idle →
    s.pins.rst = u.pins.rst → step s = .next t → step u = .next v → t.blk = v.blk ∧ t.freeReads = v.freeReads

/-- What an execution leaves alone whatever the command and the branch of the edge: the parameters and the host's script
change at no edge of the block, and the model's count of free values only where a transmission reads beyond the buffer. -/
def Obligations.ExecChangesOnlyTheBlock : Prop :=
  ∀ (i : Instr) (s t : State), exec i s = .next t →
    t.params = s.params ∧ t.script = s.script ∧
    t.freeReads =
      (if s.pins.rst = false ∧ s.blk.st = .dh ∧ s.blk.cnt = 0 ∧ 72 ≤ s.blk.idx.toNat then s.freeReads + 1
       else s.freeReads)

/-! ## The commands -/

/-- `DeviceOn` (R65 with R64): on the accepting edge the 26 controller bits, group_flag 0, on_flag 1 and the 4 device bits
go into `buf[0..63]`, most significant first; entries 64 to 71 keep their values; Latch 1 starts. -/
def Obligations.DeviceOnAccepted : Prop :=
  ∀ (ctrl dev : Uint) (s : State), s.pins.rst = false → s.blk.st = .idle →
    (∀ level, decode (cmdWord 0b001#3 ctrl dev level) = .deviceOn ctrl dev) ∧
    ∃ t, exec (.deviceOn ctrl dev) s = .next t ∧ AcceptedFrom s t false ∧
      (∀ k, k < 26 → PairAt t.blk.buf k (FrameSym.ofBit (ctrl.getLsbD (25 - k)))) ∧
      PairAt t.blk.buf 26 .zero ∧ PairAt t.blk.buf 27 .one ∧
      (∀ k, k < 4 → PairAt t.blk.buf (28 + k) (FrameSym.ofBit (dev.getLsbD (3 - k)))) ∧
      ∀ j, 64 ≤ j → PulseBuffer.read t.blk.buf j = PulseBuffer.read s.blk.buf j

/-- `DeviceOff` (R66 with R64): as `DeviceOn`, with on_flag 0, whose pair in `buf[54..55]` is `[S, L]`. -/
def Obligations.DeviceOffAccepted : Prop :=
  ∀ (ctrl dev : Uint) (s : State), s.pins.rst = false → s.blk.st = .idle →
    (∀ level, decode (cmdWord 0b010#3 ctrl dev level) = .deviceOff ctrl dev) ∧
    ∃ t, exec (.deviceOff ctrl dev) s = .next t ∧ AcceptedFrom s t false ∧
      (∀ k, k < 26 → PairAt t.blk.buf k (FrameSym.ofBit (ctrl.getLsbD (25 - k)))) ∧
      PairAt t.blk.buf 26 .zero ∧ PairAt t.blk.buf 27 .zero ∧
      (∀ k, k < 4 → PairAt t.blk.buf (28 + k) (FrameSym.ofBit (dev.getLsbD (3 - k)))) ∧
      ∀ j, 64 ≤ j → PulseBuffer.read t.blk.buf j = PulseBuffer.read s.blk.buf j

/-- `GroupOn` (R67 with R64): group_flag 1, on_flag 1, device_id 0 whatever `cmd_dev` is. -/
def Obligations.GroupOnAccepted : Prop :=
  ∀ (ctrl : Uint) (s : State), s.pins.rst = false → s.blk.st = .idle →
    (∀ dev level, decode (cmdWord 0b011#3 ctrl dev level) = .groupOn ctrl) ∧
    ∃ t, exec (.groupOn ctrl) s = .next t ∧ AcceptedFrom s t false ∧
      (∀ k, k < 26 → PairAt t.blk.buf k (FrameSym.ofBit (ctrl.getLsbD (25 - k)))) ∧
      PairAt t.blk.buf 26 .one ∧ PairAt t.blk.buf 27 .one ∧
      (∀ k, k < 4 → PairAt t.blk.buf (28 + k) .zero) ∧
      ∀ j, 64 ≤ j → PulseBuffer.read t.blk.buf j = PulseBuffer.read s.blk.buf j

/-- `GroupOff` (R68 with R64). -/
def Obligations.GroupOffAccepted : Prop :=
  ∀ (ctrl : Uint) (s : State), s.pins.rst = false → s.blk.st = .idle →
    (∀ dev level, decode (cmdWord 0b100#3 ctrl dev level) = .groupOff ctrl) ∧
    ∃ t, exec (.groupOff ctrl) s = .next t ∧ AcceptedFrom s t false ∧
      (∀ k, k < 26 → PairAt t.blk.buf k (FrameSym.ofBit (ctrl.getLsbD (25 - k)))) ∧
      PairAt t.blk.buf 26 .one ∧ PairAt t.blk.buf 27 .zero ∧
      (∀ k, k < 4 → PairAt t.blk.buf (28 + k) .zero) ∧
      ∀ j, 64 ≤ j → PulseBuffer.read t.blk.buf j = PulseBuffer.read s.blk.buf j

/-- `DeviceDim` (R69 with R64): the on/off slot holds `[S, S]`, and `buf[64..71]` the dim field, which is 0 under
`LITERAL` and `trunc_4((cmd_level * 15) div 100)` under `INTENT`. -/
def Obligations.DeviceDimAccepted : Prop :=
  ∀ (ctrl dev level : Uint) (s : State), s.pins.rst = false → s.blk.st = .idle →
    decode (cmdWord 0b101#3 ctrl dev level) = .deviceDim ctrl dev level ∧
    ∃ t, exec (.deviceDim ctrl dev level) s = .next t ∧ AcceptedFrom s t true ∧
      (∀ k, k < 26 → PairAt t.blk.buf k (FrameSym.ofBit (ctrl.getLsbD (25 - k)))) ∧
      PairAt t.blk.buf 26 .zero ∧
      PulseBuffer.read t.blk.buf 54 = some .short ∧ PulseBuffer.read t.blk.buf 55 = some .short ∧
      (∀ k, k < 4 → PairAt t.blk.buf (28 + k) (FrameSym.ofBit (dev.getLsbD (3 - k)))) ∧
      (s.params.dimScale = .literal → ∀ k, k < 4 → PairAt t.blk.buf (32 + k) .zero) ∧
      (s.params.dimScale = .intent → ∀ k, k < 4 →
        PairAt t.blk.buf (32 + k) (FrameSym.ofBit ((level.toNat * 15 / 100).testBit (3 - k))))

/-- A reserved command (R71) is accepted and dropped: `err_r` is 1, `done_r` is 0, every other register keeps its value;
the operand inputs are ignored; `cmd_ready` stays 1, so the next command can be accepted at the next edge. Presented while
the block is busy it waits like any other command. -/
def Obligations.ReservedCommandDropped : Prop :=
  (∀ ctrl dev level : Uint,
    decode (cmdWord 0b000#3 ctrl dev level) = .rsv0 ∧ decode (cmdWord 0b110#3 ctrl dev level) = .rsv6 ∧
    decode (cmdWord 0b111#3 ctrl dev level) = .rsv7) ∧
  (∀ (i : Instr) (s : State), i = .rsv0 ∨ i = .rsv6 ∨ i = .rsv7 → s.pins.rst = false → s.blk.st = .idle →
    ∃ t, exec i s = .next t ∧ t.blk = { s.blk with doneR := false, errR := true } ∧ SameOutsideBlock s t ∧
      t.event = some .cmdErr ∧ t.txOut = false ∧ t.busy = false ∧ t.cmdReady = true) ∧
  ∀ (i : Instr) (s : State), i = .rsv0 ∨ i = .rsv6 ∨ i = .rsv7 → s.blk.st ≠ .idle →
    s.accepts = false ∧ exec i s = edgeWithoutCommand s

/-- R99: a valid command never raises an exception, for any operand values, wherever it is presented: no cycle after an
edge that carries one has `cmd_err` = 1, and in `IDLE` with no reset the edge starts its transmission. -/
def Obligations.ValidCommandNeverErrs : Prop :=
  ∀ (i : Instr) (s : State), startsTransmission i = true →
    (∀ t, exec i s = .next t → t.cmdErr = false) ∧
    (s.pins.rst = false → s.blk.st = .idle → ∃ t, exec i s = .next t ∧ t.busy = true ∧ t.cmdErr = false)

/-- The length law (40_frame_encoder.md section 3): an accepted valid command leaves `len` = 64, or 72 for `DeviceDim`,
and writes exactly that many entries, the pulse sequence of its frame, from the first entry on. -/
def Obligations.AcceptedLength : Prop :=
  ∀ (i : Instr) (F : Frame) (s t : State), frame s.params i = some F → s.pins.rst = false → s.blk.st = .idle →
    exec i s = .next t →
    t.blk.len = (if sendsDim i then 72 else 64) ∧ (expand F).length = t.blk.len ∧
    ∀ j, PulseBuffer.read t.blk.buf j = if j < t.blk.len then (expand F)[j]? else PulseBuffer.read s.blk.buf j

/-- The same command accepted in two states of one build writes the same prefix and the same `is_dim`, whatever came
before (20_memory.md section 5, 40_frame_encoder.md section 3). -/
def Obligations.SameCommandSamePulses : Prop :=
  ∀ (i : Instr) (s u t v : State), startsTransmission i = true → s.params = u.params →
    s.accepts = true → u.accepts = true → exec i s = .next t → exec i u = .next v →
    t.blk.isDim = v.blk.isDim ∧ t.blk.len = v.blk.len ∧
    ∀ j, j < t.blk.len → PulseBuffer.read t.blk.buf j = PulseBuffer.read v.blk.buf j

/-- `DeviceOn` and `DeviceOff`, and `GroupOn` and `GroupOff`, differ only in entries 54 and 55, and do differ there;
`DeviceOn` and `DeviceDim` agree in entries 0 to 53 and 56 to 63 (40_frame_encoder.md section 3). -/
def Obligations.CommandsDifferOnlyInOnFlag : Prop :=
  ∀ (p : Params) (c d l : Uint) (on off gon goff dim : Frame),
    frame p (.deviceOn c d) = some on → frame p (.deviceOff c d) = some off →
    frame p (.groupOn c) = some gon → frame p (.groupOff c) = some goff →
    frame p (.deviceDim c d l) = some dim →
    (∀ j, (expand on)[j]? = (expand off)[j]? ↔ j ≠ 54 ∧ j ≠ 55) ∧
    (∀ j, (expand gon)[j]? = (expand goff)[j]? ↔ j ≠ 54 ∧ j ≠ 55) ∧
    ∀ j, j < 64 → j ≠ 54 → j ≠ 55 → (expand on)[j]? = (expand dim)[j]?

/-! ## Operands, bits and the line code -/

/-- R52: the low 26 and 4 bits are kept, the higher bits are ignored, and nothing is signalled. -/
def Obligations.IdentifiersTruncated : Prop :=
  (∀ c : Uint, (ctrl26 c).toNat = c.toNat % 2 ^ 26 ∧ ∀ j, (ctrl26 c).getLsbD j = (decide (j < 26) && c.getLsbD j)) ∧
  (∀ d : Uint, (dev4 d).toNat = d.toNat % 2 ^ 4 ∧ ∀ j, (dev4 d).getLsbD j = (decide (j < 4) && d.getLsbD j)) ∧
  ∀ (c c' d d' : Uint) (s : State), c.toNat % 2 ^ 26 = c'.toNat % 2 ^ 26 → d.toNat % 2 ^ 4 = d'.toNat % 2 ^ 4 →
    exec (.deviceOn c d) s = exec (.deviceOn c' d') s ∧ exec (.deviceOff c d) s = exec (.deviceOff c' d') s ∧
    exec (.groupOn c) s = exec (.groupOn c') s ∧ exec (.groupOff c) s = exec (.groupOff c') s ∧
    ∀ l, exec (.deviceDim c d l) s = exec (.deviceDim c' d' l) s

/-- R53: under `LITERAL` every dim level becomes 0, so the level changes nothing a `DeviceDim` does. -/
def Obligations.LiteralDimIsZero : Prop :=
  ∀ (p : Params), p.dimScale = .literal →
    (∀ l : Uint, dim4 p l = 0) ∧
    ∀ (c d l l' : Uint) (s : State), s.params = p → exec (.deviceDim c d l) s = exec (.deviceDim c d l') s

/-- R54: under `INTENT` the dim operand is `trunc_4((cmd_level * 15) div 100)` with the product exact; levels 0 to 106 map
into 0 to 15 monotonically; 100 maps to 15, 107 to 0. -/
def Obligations.IntentDimFormula : Prop :=
  ∀ (p : Params), p.dimScale = .intent →
    (∀ l : Uint, (dim4 p l).toNat = (l.toNat * 15 / 100) % 16) ∧
    (∀ l l' : Uint, l.toNat ≤ l'.toNat → l'.toNat ≤ 106 → (dim4 p l).toNat ≤ (dim4 p l').toNat) ∧
    dim4 p 100 = 15 ∧ dim4 p 107 = 0

/-- R56: `bits_N(v)` is the `N` bits of `trunc_N(v)`, most significant first, and equals the source's procedure. -/
def Obligations.BitsMostSignificantFirst : Prop :=
  ∀ n v : Nat, (bits n v).length = n ∧
    (∀ i, i < n → (bits n v)[i]? = some (FrameSym.ofBit ((v % 2 ^ n).testBit (n - 1 - i)))) ∧
    bits n v = bitsByProcedure n v

/-- The expansion of a controller id is injective: different in-range ids give different frames of the same command, and
so different pulse sequences (40_frame_encoder.md section 3). -/
def Obligations.ControllerExpansionInjective : Prop :=
  ∀ (c c' : CtrlField) (group on : FrameSym) (d : Nibble) (appended : Frame),
    expand (frameOf c group on d appended) = expand (frameOf c' group on d appended) → c = c'

/-- R58: the line code, with the durations of `S` and `L`. -/
def Obligations.LineCode : Prop :=
  code .zero = (.short, .long) ∧ code .one = (.long, .short) ∧ code .dim = (.short, .short) ∧
  LowPulse.us .short = 275 ∧ LowPulse.us .long = 1225

/-- R59: each symbol expands to its pulse pair, in offset order, and to nothing else. -/
def Obligations.ExpansionPairs : Prop :=
  ∀ F : Frame, (expand F).length = 2 * F.length ∧
    ∀ k y, F[k]? = some y →
      (expand F)[2 * k]? = some (code y).1 ∧ (expand F)[2 * k + 1]? = some (code y).2

/-- The round trip of the line code on every frame, and that `[L, L]` stands for nothing (40_frame_encoder.md section 3). -/
def Obligations.SymbolsRecoveredFromPulses : Prop :=
  symbolOf .long .long = none ∧
  ∀ (F : Frame) (k : Nat) (a b : LowPulse),
    (expand F)[2 * k]? = some a → (expand F)[2 * k + 1]? = some b → F[k]? = symbolOf a b ∧ F[k]? ≠ none

/-- The low time of a command's pulse sequence: 48000 µs, or 53050 µs for `DeviceDim`, whatever the operands
(40_frame_encoder.md section 3). -/
def Obligations.LowTimeOfCommands : Prop :=
  ∀ (p : Params) (i : Instr) (F : Frame), frame p i = some F →
    lowTime (expand F) = if sendsDim i then 53050 else 48000

/-- The frame word of a non-dim command is the number whose fields are ctrl26, group_flag, on_flag, dev4; a dim frame has
none (30_encoding.md section 3, the display form). -/
def Obligations.FrameWordFields : Prop :=
  ∀ (c : CtrlField) (d m : Nibble),
    frameWord (packDeviceOn c d) = some (c.toNat * 64 + 16 + d.toNat) ∧
    frameWord (packDeviceOff c d) = some (c.toNat * 64 + d.toNat) ∧
    frameWord (packGroupOn c) = some (c.toNat * 64 + 32 + 16) ∧
    frameWord (packGroupOff c) = some (c.toNat * 64 + 32) ∧
    frameWord (packDeviceDim c d m) = none

/-! ## The transmitter -/

/-- While the counter of a segment is not 0, an edge with `rst` = 0 takes 1 from it, clears the pulses and changes nothing
else in the block, whatever is presented (the counting branch of 41_transmitter.md R90). -/
def Obligations.CounterCountsDown : Prop :=
  ∀ s : State, s.pins.rst = false → s.blk.st ≠ .idle → s.blk.cnt ≠ 0 →
    ∃ t, step s = .next t ∧ t.params = s.params ∧
      t.blk = { s.blk with cnt := s.blk.cnt - 1, doneR := false, errR := false }

/-- R79: `seg(d) = d * CYCLES_PER_US`; an edge that enters a state with a segment of `d` µs loads `cnt` with
`seg(d) - 1`, and every such `d` is positive; a segment so entered holds its state, its index and its repeat for exactly
`seg(d)` cycles; the sequencer leaves the state at the edge that ends the last of them, the first at which `cnt` = 0. -/
def Obligations.SegmentLastsExactly : Prop :=
  (∀ (p : Params) (d : Nat), seg p d = d * p.cyclesPerUs) ∧
  (∀ (s t : State) (d : Nat), step s = .next t → t.blk.st ≠ s.blk.st → t.blk.segmentUs = some d →
    1 ≤ d ∧ t.blk.cnt = seg t.params d - 1) ∧
  ∀ (s : State) (d : Nat), s.params.wellFormed = true → s.blk.segmentUs = some d →
    s.blk.cnt = seg s.params d - 1 → NoResetFor (seg s.params d) s →
    (∀ k, k < seg s.params d → ∃ t, runFor k s = some t ∧ t.blk.st = s.blk.st ∧ t.blk.idx = s.blk.idx ∧
      t.blk.rep = s.blk.rep ∧ t.blk.buf = s.blk.buf ∧ (t.blk.cnt = 0 ↔ k + 1 = seg s.params d)) ∧
    ∀ u, runFor (seg s.params d) s = some u → u.blk.st ≠ s.blk.st

/-- R81: the moves at the end of a segment, with what each loads into `cnt`, whatever is presented. -/
def Obligations.TransitionTable : Prop :=
  ∀ s : State, s.pins.rst = false → s.blk.cnt = 0 → s.blk.st ≠ .idle →
    ∃ t, step s = .next t ∧ t.params = s.params ∧
      (s.blk.st = .l1h → t.blk = s.blk.movedTo s.params .l1l 9900 s.blk.idx s.blk.rep) ∧
      (s.blk.st = .l1l → t.blk = s.blk.movedTo s.params .l2h 275 s.blk.idx s.blk.rep) ∧
      (s.blk.st = .l2h → t.blk = s.blk.movedTo s.params .l2l 2675 s.blk.idx s.blk.rep) ∧
      (s.blk.st = .l2l → t.blk = s.blk.movedTo s.params .dh 275 0 s.blk.rep) ∧
      (s.blk.st = .dh → ∀ d, PulseBuffer.read s.blk.buf s.blk.idx.toNat = some d →
        t.blk = s.blk.movedTo s.params .dl d.us s.blk.idx s.blk.rep) ∧
      (s.blk.st = .dl → s.blk.idx.toNat + 1 < s.blk.len →
        t.blk = s.blk.movedTo s.params .dh 275 (s.blk.idx + 1) s.blk.rep) ∧
      (s.blk.st = .dl → s.blk.idx.toNat + 1 = s.blk.len →
        t.blk = s.blk.movedTo s.params .th 275 s.blk.idx s.blk.rep) ∧
      (s.blk.st = .th → t.blk = s.blk.movedTo s.params .tl 2675 s.blk.idx s.blk.rep) ∧
      (s.blk.st = .tl → t.blk = s.blk.movedTo s.params .gap 10000 s.blk.idx s.blk.rep) ∧
      (s.blk.st = .gap → s.blk.rep = 0 → t.blk = s.blk.movedTo s.params .l1h 275 s.blk.idx 1) ∧
      (s.blk.st = .gap → s.blk.rep = 1 →
        t.blk = { s.blk with st := .idle, doneR := true, errR := false })

/-- The output functions of R28. -/
def Obligations.OutputFunctions : Prop :=
  ∀ s : State,
    (s.txOut = true ↔ s.blk.st = .l1h ∨ s.blk.st = .l2h ∨ s.blk.st = .dh ∨ s.blk.st = .th) ∧
    (s.status = true ↔ s.params.statusEn = true ∧ s.blk.st ≠ .idle ∧ s.blk.st ≠ .gap) ∧
    (s.irqMask = true ↔ s.blk.st ≠ .idle) ∧ (s.busy = true ↔ s.blk.st ≠ .idle) ∧
    (s.cmdReady = true ↔ s.blk.st = .idle ∧ s.pins.rst = false) ∧
    s.done = s.blk.doneR ∧ s.cmdErr = s.blk.errR

/-- The critical section is entered only by accepting a valid command (41_transmitter.md R82), and each edge that accepts
one enters it, with the line high in its first cycle; a reserved command does not assert `irq_mask`. -/
def Obligations.CriticalSectionEntry : Prop :=
  ∀ s t : State, step s = .next t → s.irqMask = false →
    (t.irqMask = true ↔
      s.accepts = true ∧ ∃ i, s.presented = some i ∧ startsTransmission i = true) ∧
    (t.irqMask = true → t.blk.st = .l1h ∧ t.txOut = true)

/-- R83: `irq_mask` becomes 0 at exactly two kinds of edge: the end of the second repeat's gap, and any edge with
`rst` = 1. -/
def Obligations.CriticalSectionExit : Prop :=
  ∀ s t : State, step s = .next t → s.irqMask = true →
    (t.irqMask = false ↔
      s.pins.rst = true ∨ (s.blk.st = .gap ∧ s.blk.cnt = 0 ∧ s.blk.rep = 1))

/-- R91: the cycle after an edge has `done` = 1 exactly when that edge ends the second repeat's gap without a reset, so
the pulse lasts one cycle; in that cycle `busy` and `irq_mask` are 0, and `cmd_ready` is 1 if `rst` = 0. -/
def Obligations.DonePulse : Prop :=
  ∀ s t : State, step s = .next t →
    (t.done = true ↔
      s.pins.rst = false ∧ s.blk.st = .gap ∧ s.blk.cnt = 0 ∧ s.blk.rep = 1) ∧
    (t.done = true → t.busy = false ∧ t.irqMask = false ∧ (t.pins.rst = false → t.cmdReady = true)) ∧
    (t.done = true → ∀ u, step t = .next u → u.done = false)

/-- R27: `done_r` is 1 exactly after the edge at which a transmission returns to `IDLE` by its own end, `err_r` exactly
after the edge that accepts a reserved command; every other edge sets each to 0. -/
def Obligations.PulseRegisters : Prop :=
  ∀ s t : State, step s = .next t →
    (t.blk.doneR = true ↔ s.pins.rst = false ∧ s.blk.st ≠ .idle ∧ t.blk.st = .idle) ∧
    (t.blk.errR = true ↔ s.accepts = true ∧ ∃ i, s.presented = some i ∧ startsTransmission i = false)

/-- `done` and `cmd_err` are never 1 in the same cycle after an edge (60_exceptions.md section 3). -/
def Obligations.PulsesNeverTogether : Prop :=
  ∀ s t : State, step s = .next t → ¬ (t.done = true ∧ t.cmdErr = true)

/-- The pulse buffer is written only by the acceptance of a valid command (20_memory.md R34): at every other edge each entry
keeps its value. -/
def Obligations.BufferWrittenOnlyByAcceptance : Prop :=
  ∀ s t : State, step s = .next t →
    (∀ i, s.accepts = true → s.presented = some i → startsTransmission i = false) →
    ∀ j, PulseBuffer.read t.blk.buf j = PulseBuffer.read s.blk.buf j

/-- The waveform law (41_transmitter.md section 4): from the edge that accepts a valid command, with no reset, the line
plays `Wave(P)` cycle by cycle, `irq_mask` and `busy` are 1 and `status` follows its own waveform for exactly `T` cycles;
the next cycle is `IDLE` with `done` = 1. -/
def Obligations.TransmissionPlaysWave : Prop :=
  ∀ (s : State) (i : Instr) (F : Frame), s.params.wellFormed = true → s.blk.st = .idle →
    s.presented = some i → frame s.params i = some F →
    NoResetFor (waveCycles s.params (expand F) + 1) s →
    (∀ k, k < waveCycles s.params (expand F) → ∃ t, runFor (k + 1) s = some t ∧
      (cycleLevels s.params (wave (expand F)))[k]? = some t.txOut ∧
      (cycleLevels s.params (statusWave s.params (expand F)))[k]? = some t.status ∧
      t.irqMask = true ∧ t.busy = true) ∧
    ∃ t, runFor (waveCycles s.params (expand F) + 1) s = some t ∧ t.blk.st = .idle ∧
      t.txOut = false ∧ t.irqMask = false ∧ t.busy = false ∧ t.done = true

/-- Between the acceptance of a valid command and its `done` cycle no command is accepted; in the `done` cycle, `T` cycles
after the first of the transmission, a presented command is, if `rst` = 0 (70_reset_and_hazards.md section 4). -/
def Obligations.NextAcceptanceAfterDone : Prop :=
  ∀ (s t : State) (i : Instr) (F : Frame) (k : Nat), s.params.wellFormed = true → s.accepts = true →
    s.presented = some i → frame s.params i = some F →
    NoResetFor (waveCycles s.params (expand F) + 1) s → runFor k s = some t → 1 ≤ k →
    (k ≤ waveCycles s.params (expand F) → t.accepts = false) ∧
    (k = waveCycles s.params (expand F) + 1 → (t.accepts = true ↔ t.pins.cmdValid = true ∧ t.pins.rst = false))

/-- No output depends on a buffer entry that the command being transmitted did not write (10_state.md sections 3 and 6):
two machines that differ only in such entries show the same outputs, and so do their next states, which again differ
only in such entries. -/
def Obligations.StaleEntriesUnobservable : Prop :=
  ∀ s u t v : State, Inv s → SameButStale s u → step s = .next t → step u = .next v →
    s.outputs = u.outputs ∧ SameButStale t v ∧ t.outputs = v.outputs

/-- The durations of a repeat and of a transmission depend on the kind of command alone (41_transmitter.md section 4;
70_reset_and_hazards.md section 4). -/
def Obligations.TransmissionDurations : Prop :=
  ∀ (p : Params) (i : Instr) (F : Frame), frame p i = some F →
    waveUs (repeatWave (expand F)) = (if sendsDim i then 98925 else 91675) ∧
    waveCycles p (expand F) = p.cyclesPerUs * (if sendsDim i then 197850 else 183350) ∧
    (cycleLevels p (wave (expand F))).length = waveCycles p (expand F)

/-- The rising edges of `tx_out` (41_transmitter.md section 4): `len(P) + 3` in a repeat, and 134 in the transmission of a
non-dim command, 150 in that of a dim command. -/
def Obligations.RisingEdgesPerCommand : Prop :=
  ∀ (p : Params) (i : Instr) (F : Frame), frame p i = some F →
    risingEdges (repeatWave (expand F)) = (expand F).length + 3 ∧
    risingEdges (wave (expand F)) = if sendsDim i then 150 else 134

/-- `CNT_W` is the least width that holds `T_GAP * CYCLES_PER_US - 1` (10_state.md R17), and no segment's load exceeds
it. -/
def Obligations.CounterWidthIsLeast : Prop :=
  ∀ p : Params, p.wellFormed = true →
    (∀ w, 10000 * p.cyclesPerUs - 1 < 2 ^ w ↔ cntW p ≤ w) ∧
    ∀ (b : Block) (d : Nat), b.segmentUs = some d → seg p d - 1 < 2 ^ cntW p

/-! ## Reset, parameters and the invariant -/

/-- R115 and R116: an edge with `rst` = 1 performs the reset action and nothing else, from every state and whatever is
presented: each register but `buf` takes its value, `buf` is not written, no command is accepted, and in the next cycle
all outputs are 0, `cmd_ready` being 1 if `rst` is then 0. -/
def Obligations.ResetActionWins : Prop :=
  ∀ s : State, s.pins.rst = true →
    s.accepts = false ∧
    (∀ i, ∃ t, exec i s = .next t ∧ SameOutsideBlock s t ∧
      t.blk =
        { st := .idle, rep := 0, idx := 0, isDim := false, cnt := 0, buf := s.blk.buf, doneR := false,
          errR := false }) ∧
    ∃ t, step s = .next t ∧ t.params = s.params ∧
      t.blk =
        { st := .idle, rep := 0, idx := 0, isDim := false, cnt := 0, buf := s.blk.buf, doneR := false,
          errR := false } ∧
      t.txOut = false ∧ t.status = false ∧ t.irqMask = false ∧ t.busy = false ∧ t.done = false ∧ t.cmdErr = false ∧
      (t.cmdReady = true ↔ t.pins.rst = false)

/-- R117: a reset during a transmission aborts it, with no completion pulse. -/
def Obligations.ResetAbortsTransmission : Prop :=
  ∀ s t : State, s.blk.st ≠ .idle → s.pins.rst = true → step s = .next t →
    t.txOut = false ∧ t.status = false ∧ t.irqMask = false ∧ t.busy = false ∧ t.done = false ∧ t.blk.st = .idle

/-- R31: the registers after reset, in every build. (`buf`, which the spec leaves unspecified, is not spoken of.) -/
def Obligations.ResetState : Prop :=
  ∀ p : Params, (State.resetIn p).blk.st = .idle ∧ (State.resetIn p).blk.rep = 0 ∧ (State.resetIn p).blk.idx = 0 ∧
    (State.resetIn p).blk.isDim = false ∧ (State.resetIn p).blk.cnt = 0 ∧ (State.resetIn p).blk.doneR = false ∧
    (State.resetIn p).blk.errR = false ∧ (State.resetIn p).params = p ∧ (State.resetIn p).txOut = false ∧
    (State.resetIn p).status = false ∧ (State.resetIn p).irqMask = false ∧ (State.resetIn p).busy = false

/-- R125: no step changes a parameter of the build. -/
def Obligations.ParametersFixed : Prop :=
  ∀ (k : Nat) (s t : State), runFor k s = some t → t.params = s.params

/-- Every step keeps the invariant. -/
def Obligations.StepKeepsInv : Prop :=
  ∀ s t : State, Inv s → step s = .next t → Inv t

/-- The state after reset satisfies the invariant, in every build R7 allows. -/
def Obligations.ResetStateSatisfiesInv : Prop :=
  ∀ p : Params, p.wellFormed = true → Inv (State.resetIn p)

/-- One edge with `rst` = 1 brings EVERY state of a build R7 allows, a power-up state among them, into the invariant
(70_reset_and_hazards.md sections 1 and 2). -/
def Obligations.OneResetEdgeEstablishesInv : Prop :=
  ∀ s : State, s.params.wellFormed = true → s.pins.rst = true → ∃ t, step s = .next t ∧ Inv t

/-- Nothing stops the machine, in any state, power-up states among them (70_reset_and_hazards.md sections 1 and 2): every
command answers a next state, an edge without a command does, the step does, and so a run of any length goes on. That a
power-up state in `DH` with an index beyond the buffer goes on, with a free value, is the model's choice
(notes/assumptions/6.md): the spec's 'any value'. -/
def Obligations.MachineNeverStops : Prop :=
  ∀ s : State, (∀ i, ∃ t, exec i s = .next t) ∧ (∃ t, edgeWithoutCommand s = .next t) ∧ (∃ t, step s = .next t) ∧
    ∀ k, ∃ t, runFor k s = some t

/-- No index outside the buffer is ever formed after a reset (20_memory.md section 1): from a state of the invariant, in
every later state the data states have an index below `len`, so the move that reads the buffer reads an entry of the
prefix, and no free value is drawn. -/
def Obligations.BufferIndexInRange : Prop :=
  ∀ (k : Nat) (s t : State), Inv s → runFor k s = some t →
    t.freeReads = s.freeReads ∧
    (t.blk.st = .dh ∨ t.blk.st = .dl →
      t.blk.idx.toNat < t.blk.len ∧ ∃ d, PulseBuffer.read t.blk.buf t.blk.idx.toNat = some d)

/-- Where an index of a power-up register lies beyond the buffer (70_reset_and_hazards.md section 1), the machine goes on:
`cnt` is loaded with a free value, and every other effect of the move from `DH` to `DL` is as R81 gives it, for each
command and for the step. The free value is the model's form of 'any value' (notes/assumptions/6.md). -/
def Obligations.AbsentEntryReadsFreeValue : Prop :=
  ∀ s : State, s.pins.rst = false → s.blk.st = .dh → s.blk.cnt = 0 → 72 ≤ s.blk.idx.toNat →
    (∃ t, step s = .next t ∧ t.params = s.params ∧ t.freeReads = s.freeReads + 1 ∧
      t.blk = { s.blk with
        st := .dl, doneR := false, errR := false
        cnt := Config.absentLoad s.freeReads % 2 ^ cntW s.params } ∧
      (t.pins.rst = true → ∀ u, step t = .next u → u.blk.st = .idle ∧ u.irqMask = false)) ∧
    ∀ i, ∃ t, exec i s = .next t ∧ t.blk = { s.blk with
      st := .dl, doneR := false, errR := false
      cnt := Config.absentLoad s.freeReads % 2 ^ cntW s.params }

/-! ## The host's side -/

/-- R104: what the host's controller delivers is its own enable and not `irq_mask`, and `irq_mask` is 1 exactly while
`st` is not `IDLE`. -/
def Obligations.InterruptMaskCombines : Prop :=
  ∀ (s : State) (enable : Bool),
    (s.irqMask = true ↔ s.blk.st ≠ .idle) ∧
    (s.hostInterruptsDelivered enable = true ↔ enable = true ∧ s.irqMask = false)

/-- The directives of a host program (30_encoding.md section 4, 95_test_vectors.md section 3), wherever the host stands at
one: `reset n` holds `rst` = 1 for exactly `n` edges and `idle n` holds `cmd_valid` = 0 for exactly `n`, after which the
host is at its next move, 0 edges included; `wait_done` holds `cmd_valid` = 0 and ends at the edge after which `done` = 1.
The model's readings: that `wait_done` takes at least one edge (notes/assumptions/10.md), that `idle` and `wait_done` hold
`rst` = 0 (notes/assumptions/11.md), and that a directive of 0 cycles lasts no edge (notes/assumptions/12.md). -/
def Obligations.DirectivesLast : Prop :=
  ∀ (s : State) (rest : List HostMove),
    (∀ n, liveMoves s.script = liveMoves (.reset n :: rest) →
      (∀ k, k < n → ∃ t, runFor k s = some t ∧ t.pins.rst = true) ∧
      ∃ t, runFor n s = some t ∧ liveMoves t.script = liveMoves rest) ∧
    (∀ n, liveMoves s.script = liveMoves (.idle n :: rest) →
      (∀ k, k < n → ∃ t, runFor k s = some t ∧ t.pins.rst = false ∧ t.pins.cmdValid = false) ∧
      ∃ t, runFor n s = some t ∧ liveMoves t.script = liveMoves rest) ∧
    (liveMoves s.script = .waitDone :: rest →
      s.pins.rst = false ∧ s.pins.cmdValid = false ∧
      ∃ t, step s = .next t ∧ liveMoves t.script = if t.done then liveMoves rest else .waitDone :: rest)
end

