-- ==== Sys2Proof/Laws/State.lean ====
section
/-! SUPPORT. What each update of the block and of the machine leaves in each field. -/

namespace Sys2Proof.Machine

/-! ### The pulse registers -/

@[simp] theorem clearPulses_st (b : Block) : b.clearPulses.st = b.st := rfl
@[simp] theorem clearPulses_rep (b : Block) : b.clearPulses.rep = b.rep := rfl
@[simp] theorem clearPulses_idx (b : Block) : b.clearPulses.idx = b.idx := rfl
@[simp] theorem clearPulses_isDim (b : Block) : b.clearPulses.isDim = b.isDim := rfl
@[simp] theorem clearPulses_cnt (b : Block) : b.clearPulses.cnt = b.cnt := rfl
@[simp] theorem clearPulses_buf (b : Block) : b.clearPulses.buf = b.buf := rfl
@[simp] theorem clearPulses_doneR (b : Block) : b.clearPulses.doneR = false := rfl
@[simp] theorem clearPulses_errR (b : Block) : b.clearPulses.errR = false := rfl

@[simp] theorem pulseDone_st (b : Block) : b.pulseDone.st = b.st := rfl
@[simp] theorem pulseDone_rep (b : Block) : b.pulseDone.rep = b.rep := rfl
@[simp] theorem pulseDone_idx (b : Block) : b.pulseDone.idx = b.idx := rfl
@[simp] theorem pulseDone_isDim (b : Block) : b.pulseDone.isDim = b.isDim := rfl
@[simp] theorem pulseDone_cnt (b : Block) : b.pulseDone.cnt = b.cnt := rfl
@[simp] theorem pulseDone_buf (b : Block) : b.pulseDone.buf = b.buf := rfl
@[simp] theorem pulseDone_doneR (b : Block) : b.pulseDone.doneR = true := rfl
@[simp] theorem pulseDone_errR (b : Block) : b.pulseDone.errR = false := rfl

@[simp] theorem pulseErr_st (b : Block) : b.pulseErr.st = b.st := rfl
@[simp] theorem pulseErr_rep (b : Block) : b.pulseErr.rep = b.rep := rfl
@[simp] theorem pulseErr_idx (b : Block) : b.pulseErr.idx = b.idx := rfl
@[simp] theorem pulseErr_isDim (b : Block) : b.pulseErr.isDim = b.isDim := rfl
@[simp] theorem pulseErr_cnt (b : Block) : b.pulseErr.cnt = b.cnt := rfl
@[simp] theorem pulseErr_buf (b : Block) : b.pulseErr.buf = b.buf := rfl
@[simp] theorem pulseErr_doneR (b : Block) : b.pulseErr.doneR = false := rfl
@[simp] theorem pulseErr_errR (b : Block) : b.pulseErr.errR = true := rfl

/-! ### The reset and the acceptance action of the block -/

@[simp] theorem blockReset_st (b : Block) : b.resetAction.st = .idle := rfl
@[simp] theorem blockReset_rep (b : Block) : b.resetAction.rep = 0 := rfl
@[simp] theorem blockReset_idx (b : Block) : b.resetAction.idx = 0 := rfl
@[simp] theorem blockReset_isDim (b : Block) : b.resetAction.isDim = false := rfl
@[simp] theorem blockReset_cnt (b : Block) : b.resetAction.cnt = 0 := rfl
@[simp] theorem blockReset_buf (b : Block) : b.resetAction.buf = b.buf := rfl
@[simp] theorem blockReset_doneR (b : Block) : b.resetAction.doneR = false := rfl
@[simp] theorem blockReset_errR (b : Block) : b.resetAction.errR = false := rfl

@[simp] theorem blockAccept_st (p : Params) (isDim : Bool) (F : Frame) (b : Block) : (b.accept p isDim F).st = .l1h := rfl
@[simp] theorem blockAccept_rep (p : Params) (isDim : Bool) (F : Frame) (b : Block) : (b.accept p isDim F).rep = 0 := rfl
@[simp] theorem blockAccept_idx (p : Params) (isDim : Bool) (F : Frame) (b : Block) : (b.accept p isDim F).idx = 0 := rfl
@[simp] theorem blockAccept_isDim (p : Params) (isDim : Bool) (F : Frame) (b : Block) : (b.accept p isDim F).isDim = isDim := rfl
@[simp] theorem blockAccept_cnt (p : Params) (isDim : Bool) (F : Frame) (b : Block) : (b.accept p isDim F).cnt = seg p l1High - 1 := rfl
@[simp] theorem blockAccept_buf (p : Params) (isDim : Bool) (F : Frame) (b : Block) : (b.accept p isDim F).buf = PulseBuffer.write b.buf (expand F) := rfl
@[simp] theorem blockAccept_doneR (p : Params) (isDim : Bool) (F : Frame) (b : Block) : (b.accept p isDim F).doneR = false := rfl
@[simp] theorem blockAccept_errR (p : Params) (isDim : Bool) (F : Frame) (b : Block) : (b.accept p isDim F).errR = false := rfl

/-! ### Writing the block -/

@[simp] theorem setBlk_blk (s : State) (b : Block) :
    (s.setBlk b).blk = { b with cnt := b.cnt % 2 ^ cntW s.params } := rfl
@[simp] theorem setBlk_params (s : State) (b : Block) : (s.setBlk b).params = s.params := rfl
@[simp] theorem setBlk_script (s : State) (b : Block) : (s.setBlk b).script = s.script := rfl
@[simp] theorem setBlk_freeReads (s : State) (b : Block) : (s.setBlk b).freeReads = s.freeReads := rfl

/-- A block whose counter fits is written as it is. -/
theorem setBlk_of_fits {s : State} {b : Block} (h : b.cnt < 2 ^ cntW s.params) : (s.setBlk b).blk = b := by
  rw [setBlk_blk, Nat.mod_eq_of_lt h]

/-- The load of a segment no longer than the longest fits the counter (R24). -/
theorem load_fits (p : Params) {d : Nat} (h : d ≤ tGap) : seg p d - 1 < 2 ^ cntW p := by
  have hle : d * p.cyclesPerUs ≤ tGap * p.cyclesPerUs := Nat.mul_le_mul_right _ h
  have hlt : tGap * p.cyclesPerUs - 1 < 2 ^ cntW p := Nat.lt_log2_self
  unfold seg
  omega

/-! ### The machine -/

@[simp] theorem resetAction_blk (s : State) : s.resetAction.blk = s.blk.resetAction :=
  setBlk_of_fits (Nat.two_pow_pos _)
@[simp] theorem resetAction_params (s : State) : s.resetAction.params = s.params := rfl
@[simp] theorem resetAction_script (s : State) : s.resetAction.script = s.script := rfl
@[simp] theorem resetAction_freeReads (s : State) : s.resetAction.freeReads = s.freeReads := rfl

@[simp] theorem accept_blk (isDim : Bool) (F : Frame) (s : State) :
    (s.accept isDim F).blk = s.blk.accept s.params isDim F :=
  setBlk_of_fits (load_fits _ (by decide))
@[simp] theorem accept_params (isDim : Bool) (F : Frame) (s : State) : (s.accept isDim F).params = s.params := rfl
@[simp] theorem accept_script (isDim : Bool) (F : Frame) (s : State) : (s.accept isDim F).script = s.script := rfl
@[simp] theorem accept_freeReads (isDim : Bool) (F : Frame) (s : State) :
    (s.accept isDim F).freeReads = s.freeReads := rfl

@[simp] theorem raiseCmdErr_blk (s : State) : s.raiseCmdErr.blk = s.blk.pulseErr := setBlk_of_fits s.cntFits
@[simp] theorem raiseCmdErr_params (s : State) : s.raiseCmdErr.params = s.params := rfl
@[simp] theorem raiseCmdErr_script (s : State) : s.raiseCmdErr.script = s.script := rfl
@[simp] theorem raiseCmdErr_freeReads (s : State) : s.raiseCmdErr.freeReads = s.freeReads := rfl

@[simp] theorem stayIdle_blk (s : State) : s.stayIdle.blk = s.blk.clearPulses := setBlk_of_fits s.cntFits
@[simp] theorem stayIdle_params (s : State) : s.stayIdle.params = s.params := rfl
@[simp] theorem stayIdle_script (s : State) : s.stayIdle.script = s.script := rfl
@[simp] theorem stayIdle_freeReads (s : State) : s.stayIdle.freeReads = s.freeReads := rfl

@[simp] theorem tick_params (s : State) : s.tick.params = s.params := rfl
@[simp] theorem tick_script (s : State) : s.tick.script = s.script := rfl
@[simp] theorem tick_freeReads (s : State) :
    s.tick.freeReads = if s.blk.readsAbsent then s.freeReads + 1 else s.freeReads := rfl

@[simp] theorem resetIn_blk (p : Params) : (State.resetIn p).blk = Block.reset := rfl
@[simp] theorem resetIn_params (p : Params) : (State.resetIn p).params = p := rfl
@[simp] theorem resetIn_script (p : Params) : (State.resetIn p).script = [] := rfl
@[simp] theorem resetIn_freeReads (p : Params) : (State.resetIn p).freeReads = 0 := rfl

end Sys2Proof.Machine
end

