-- ==== Sys2Proof/Laws/Ops.lean ====
section
/-! SUPPORT. What each shared operation can do, said once: cite these lemmas instead of unfolding the operations. -/

namespace Sys2Proof

/-! ### The command word -/

@[simp] theorem wordOp_cmdWord (op : Op) (ctrl dev level : Uint) : wordOp (cmdWord op ctrl dev level) = op := by
  apply BitVec.eq_of_getLsbD_eq
  intro j hj
  simp only [wordOp, cmdWord, BitVec.getLsbD_extractLsb', BitVec.getLsbD_append]
  simp [show j < 3 by omega]

@[simp] theorem wordCtrl_cmdWord (op : Op) (ctrl dev level : Uint) :
    wordCtrl (cmdWord op ctrl dev level) = ctrl := by
  apply BitVec.eq_of_getLsbD_eq
  intro j hj
  simp only [wordCtrl, cmdWord, BitVec.getLsbD_extractLsb', BitVec.getLsbD_append]
  simp [show j < 32 by omega]

@[simp] theorem wordDev_cmdWord (op : Op) (ctrl dev level : Uint) :
    wordDev (cmdWord op ctrl dev level) = dev := by
  apply BitVec.eq_of_getLsbD_eq
  intro j hj
  simp only [wordDev, cmdWord, BitVec.getLsbD_extractLsb', BitVec.getLsbD_append]
  simp [show j < 32 by omega, show ¬ 35 + j < 3 by omega, show ¬ 35 + j - 3 < 32 by omega,
    show 35 + j - 3 - 32 = j by omega]

@[simp] theorem wordLevel_cmdWord (op : Op) (ctrl dev level : Uint) :
    wordLevel (cmdWord op ctrl dev level) = level := by
  apply BitVec.eq_of_getLsbD_eq
  intro j hj
  simp only [wordLevel, cmdWord, BitVec.getLsbD_extractLsb', BitVec.getLsbD_append]
  simp [show j < 32 by omega, show ¬ 67 + j < 3 by omega, show ¬ 67 + j - 3 < 32 by omega,
    show ¬ 67 + j - 3 - 32 < 32 by omega, show 67 + j - 3 - 32 - 32 = j by omega]

/-- A word is made of its four fields. -/
theorem cmdWord_fields (w : CmdWord) : cmdWord (wordOp w) (wordCtrl w) (wordDev w) (wordLevel w) = w := by
  apply BitVec.eq_of_getLsbD_eq
  intro j hj
  simp only [wordOp, wordCtrl, wordDev, wordLevel, cmdWord, BitVec.getLsbD_extractLsb', BitVec.getLsbD_append]
  by_cases h1 : j < 3
  · simp [h1]
  by_cases h2 : j < 35
  · simp [h1, show j - 3 < 32 by omega, show 3 + (j - 3) = j by omega]
  by_cases h3 : j < 67
  · simp [h1, show ¬ j - 3 < 32 by omega, show j - 3 - 32 < 32 by omega, show 35 + (j - 3 - 32) = j by omega]
  · simp [h1, show ¬ j - 3 < 32 by omega, show ¬ j - 3 - 32 < 32 by omega, show j - 3 - 32 - 32 < 32 by omega,
      show 67 + (j - 3 - 32 - 32) = j by omega]

namespace Machine

/-! ### The host's pins and script -/

@[simp] theorem liveMoves_drive (p : Pins) (r : List HostMove) : liveMoves (.drive p :: r) = .drive p :: r := rfl
@[simp] theorem liveMoves_waitDone (r : List HostMove) : liveMoves (.waitDone :: r) = .waitDone :: r := rfl
@[simp] theorem liveMoves_command (op : Op) (c d l : Uint) (r : List HostMove) :
    liveMoves (.command op c d l :: r) = .command op c d l :: r := rfl
@[simp] theorem liveMoves_reset_succ (n : Nat) (r : List HostMove) :
    liveMoves (.reset (n + 1) :: r) = .reset (n + 1) :: r := rfl
@[simp] theorem liveMoves_idle_succ (n : Nat) (r : List HostMove) :
    liveMoves (.idle (n + 1) :: r) = .idle (n + 1) :: r := rfl
@[simp] theorem liveMoves_reset_zero (r : List HostMove) : liveMoves (.reset 0 :: r) = liveMoves r := rfl
@[simp] theorem liveMoves_idle_zero (r : List HostMove) : liveMoves (.idle 0 :: r) = liveMoves r := rfl
@[simp] theorem liveMoves_nil : liveMoves [] = [] := rfl

theorem pins_of_live {s : State} {m : HostMove} {r : List HostMove} (h : liveMoves s.script = m :: r) :
    s.pins = m.pins := by
  simp [State.pins, h]

theorem pins_of_script_nil {s : State} (h : s.script = []) : s.pins = Pins.quiet := by
  simp [State.pins, h]

@[simp] theorem ofWord_word (w : CmdWord) : (Pins.ofWord w).word = w := cmdWord_fields w

theorem presentNext_pins (s : State) (w : CmdWord) : (s.presentNext w).pins = Pins.ofWord w := rfl

theorem presented_of_valid {s : State} (h : s.pins.cmdValid = true) : s.presented = some (decode s.pins.word) := by
  simp [State.presented, h]

theorem presented_of_not_valid {s : State} (h : s.pins.cmdValid = false) : s.presented = none := by
  simp [State.presented, h]

theorem cmdReady_iff (s : State) : s.cmdReady = true ↔ s.blk.st = .idle ∧ s.pins.rst = false := by
  simp [State.cmdReady]

theorem presented_some_iff {s : State} {i : Instr} :
    s.presented = some i ↔ s.pins.cmdValid = true ∧ decode s.pins.word = i := by
  unfold State.presented
  split <;> simp_all

/-! ### The pulse buffer -/

theorem read_of_lt (buf : PulseBuffer) {j : Nat} (h : j < 72) : PulseBuffer.read buf j = some buf[j] := by
  simp [PulseBuffer.read, h]

theorem read_eq_none_iff (buf : PulseBuffer) (j : Nat) : PulseBuffer.read buf j = none ↔ 72 ≤ j := by
  simp [PulseBuffer.read]

/-- Reading after a write: the written entries read what was written, the others what they read before. -/
theorem read_write (buf : PulseBuffer) (P : List LowPulse) (j : Nat) :
    PulseBuffer.read (PulseBuffer.write buf P) j =
      if j < 72 then (if j < P.length then P[j]? else PulseBuffer.read buf j) else none := by
  by_cases h : j < 72
  · by_cases hp : j < P.length
    · simp [PulseBuffer.read, PulseBuffer.write, h, hp]
    · simp [PulseBuffer.read, PulseBuffer.write, h, hp]
  · simp [PulseBuffer.read, h]

/-! ### One edge -/

theorem edge_of_rst {s : State} (h : s.pins.rst = true) (f : State → State) : s.edge f = .next s.resetAction := by
  simp [State.edge, h]

theorem edge_of_idle {s : State} (h : s.pins.rst = false) (hi : s.blk.st = .idle) (f : State → State) :
    s.edge f = .next (f s) := by
  simp [State.edge, h, hi]

theorem edge_of_busy {s : State} (h : s.pins.rst = false) (hb : s.blk.st ≠ .idle) (f : State → State) :
    s.edge f = .next s.tick := by
  simp [State.edge, h, hb]

/-- The three branches of an edge. -/
theorem edge_next_cases {s t : State} {f : State → State} (h : s.edge f = .next t) :
    (s.pins.rst = true ∧ t = s.resetAction) ∨
    (s.pins.rst = false ∧ s.blk.st = .idle ∧ t = f s) ∨
    (s.pins.rst = false ∧ s.blk.st ≠ .idle ∧ t = s.tick) := by
  cases hr : s.pins.rst with
  | true => rw [edge_of_rst hr] at h; cases h; exact .inl ⟨rfl, rfl⟩
  | false =>
    by_cases hi : s.blk.st = .idle
    · rw [edge_of_idle hr hi] at h; cases h; exact .inr (.inl ⟨rfl, hi, rfl⟩)
    · rw [edge_of_busy hr hi] at h; cases h; exact .inr (.inr ⟨rfl, hi, rfl⟩)

/-- What the accepting edge of a command does: a valid command's frame is stored and its transmission starts, a reserved
command raises `CmdErr`. -/
def onAcceptance (i : Instr) (s : State) : State :=
  match frame s.params i with
  | some F => s.accept (sendsDim i) F
  | none => s.raiseCmdErr

theorem onAcceptance_outside (i : Instr) (s : State) : SameOutsideBlock s (onAcceptance i s) := by
  unfold onAcceptance
  split <;> exact ⟨rfl, rfl, rfl⟩

/-- Every meaning is one edge with its acceptance. -/
theorem exec_eq_edge (i : Instr) (s : State) : exec i s = s.edge (onAcceptance i) := by
  cases i <;>
    simp [exec, execDeviceOn, execDeviceOff, execGroupOn, execGroupOff, execDeviceDim, execRsv0, execRsv6, execRsv7,
      State.edge, onAcceptance, frame, sendsDim, Instr.opcode]

theorem frame_eq_none_iff (p : Params) (i : Instr) : frame p i = none ↔ startsTransmission i = false := by
  cases i <;> simp [frame, startsTransmission, Instr.opcode]

/-! ### The step -/

theorem hostTurn_next_iff {s t : State} {o : Host.Outcome State Fault Refusal} :
    s.hostTurn o = .next t ↔
      ∃ u, o = .next u ∧ t = { u with script := scriptAfter s.accepts u.blk.doneR s.script } := by
  cases o <;> simp [State.hostTurn, eq_comm]

/-- What `IDLE` does at the edge: the acceptance of what is presented, or nothing but clearing the pulses. -/
def onIdle (s : State) : State :=
  match s.presented with
  | some i => onAcceptance i s
  | none => s.stayIdle

theorem onIdle_outside (s : State) : SameOutsideBlock s (onIdle s) := by
  unfold onIdle
  split
  · exact onAcceptance_outside _ s
  · exact ⟨rfl, rfl, rfl⟩

theorem step_eq (s : State) : step s = s.hostTurn (s.edge onIdle) := by
  unfold step
  cases h : s.presented with
  | none => simp [edgeWithoutCommand, State.edge, onIdle, h]
  | some i => simp [exec_eq_edge, State.edge, onIdle, h]

/-- Everything a step can do. -/
theorem step_next_cases {s t : State} (h : step s = .next t) :
    t.params = s.params ∧ t.script = scriptAfter s.accepts t.blk.doneR s.script ∧
    ((s.pins.rst = true ∧ t.blk = s.blk.resetAction ∧ t.freeReads = s.freeReads) ∨
     (s.pins.rst = false ∧ s.blk.st = .idle ∧ t.blk = (onIdle s).blk ∧ t.freeReads = s.freeReads) ∨
     (s.pins.rst = false ∧ s.blk.st ≠ .idle ∧ t.blk = s.tick.blk ∧ t.freeReads = s.tick.freeReads)) := by
  rw [step_eq] at h
  obtain ⟨u, hu, rfl⟩ := hostTurn_next_iff.mp h
  rcases edge_next_cases hu with ⟨hr, rfl⟩ | ⟨hr, hi, rfl⟩ | ⟨hr, hb, rfl⟩
  · exact ⟨rfl, rfl, .inl ⟨hr, resetAction_blk s, rfl⟩⟩
  · exact ⟨(onIdle_outside s).params, rfl, .inr (.inl ⟨hr, hi, rfl, (onIdle_outside s).freeReads⟩)⟩
  · exact ⟨rfl, rfl, .inr (.inr ⟨hr, hb, rfl, rfl⟩)⟩

/-- What `IDLE` does to the block at an edge with no reset. -/
theorem onIdle_blk_cases (s : State) :
    (s.presented = none ∧ (onIdle s).blk = s.blk.clearPulses) ∨
    (∃ i, s.presented = some i ∧ startsTransmission i = false ∧ (onIdle s).blk = s.blk.pulseErr) ∨
    (∃ i F, s.presented = some i ∧ startsTransmission i = true ∧ frame s.params i = some F ∧
      (onIdle s).blk = s.blk.accept s.params (sendsDim i) F) := by
  unfold onIdle
  cases h : s.presented with
  | none => exact .inl ⟨rfl, stayIdle_blk s⟩
  | some i =>
    cases hf : frame s.params i with
    | none => exact .inr (.inl ⟨i, rfl, (frame_eq_none_iff _ _).mp hf, by simp [onAcceptance, hf]⟩)
    | some F =>
      refine .inr (.inr ⟨i, F, rfl, ?_, hf, by simp [onAcceptance, hf]⟩)
      by_contra hv
      rw [(frame_eq_none_iff s.params i).mpr (by simpa using hv)] at hf
      cases hf

/-- What an edge of a transmission does to the registers, before their widths. -/
theorem block_tick_cases (p : Params) (free : Nat) (b : Block) :
    (b.cnt ≠ 0 ∧ b.tick p free = { b.clearPulses with cnt := b.cnt - 1 }) ∨
    (b.cnt = 0 ∧
      ((b.st = .idle ∧ b.tick p free = b.clearPulses) ∨
       (b.st = .l1h ∧ b.tick p free = b.movedTo p .l1l l1Low b.idx b.rep) ∨
       (b.st = .l1l ∧ b.tick p free = b.movedTo p .l2h l2High b.idx b.rep) ∨
       (b.st = .l2h ∧ b.tick p free = b.movedTo p .l2l l2Low b.idx b.rep) ∨
       (b.st = .l2l ∧ b.tick p free = b.movedTo p .dh tHigh 0 b.rep) ∨
       (b.st = .dh ∧ b.tick p free = { b.movedTo p .dl 0 b.idx b.rep with cnt := b.pulseLoad p free }) ∨
       (b.st = .dl ∧ b.idx.toNat + 1 < b.len ∧ b.tick p free = b.movedTo p .dh tHigh (b.idx + 1) b.rep) ∨
       (b.st = .dl ∧ ¬ b.idx.toNat + 1 < b.len ∧ b.tick p free = b.movedTo p .th l2High b.idx b.rep) ∨
       (b.st = .th ∧ b.tick p free = b.movedTo p .tl l2Low b.idx b.rep) ∨
       (b.st = .tl ∧ b.tick p free = b.movedTo p .gap tGap b.idx b.rep) ∨
       (b.st = .gap ∧ b.rep = 0 ∧ b.tick p free = b.movedTo p .l1h l1High b.idx 1) ∨
       (b.st = .gap ∧ b.rep = 1 ∧ b.tick p free = { b.pulseDone with st := .idle }))) := by
  by_cases hc : b.cnt = 0
  swap
  · exact .inl ⟨hc, by simp [Block.tick, hc]⟩
  refine .inr ⟨hc, ?_⟩
  have ht : b.tick p free = b.clearPulses.segmentEnd p free := by simp [Block.tick, hc]
  have hst : b.clearPulses.st = b.st := rfl
  have hlen : b.clearPulses.len = b.len := rfl
  have hrep : b.rep ≠ 0 → b.rep = 1 := by
    generalize b.rep = r
    revert r
    decide
  rw [ht]
  unfold Block.segmentEnd
  rw [hst, hlen]
  cases b.st
  case dl =>
    by_cases hl : b.idx.toNat + 1 < b.len
    · simp only [reduceCtorEq, false_and, false_or, or_false, true_and, hl, not_true_eq_false]
      exact if_pos hl
    · simp only [reduceCtorEq, false_and, false_or, or_false, true_and, hl, not_false_eq_true]
      exact if_neg hl
  case gap =>
    simp only [reduceCtorEq, false_and, false_or, true_and]
    by_cases h0 : b.rep = 0
    · exact .inl ⟨h0, if_pos h0⟩
    · exact .inr ⟨hrep h0, if_neg h0⟩
  case idle => simp only [reduceCtorEq, false_and, or_false, true_and]
  all_goals
    simp only [reduceCtorEq, false_and, false_or, or_false, true_and]
    rfl

theorem pulseLoad_of_read {b : Block} {d : LowPulse} (h : PulseBuffer.read b.buf b.idx.toNat = some d) (p : Params)
    (free : Nat) : b.pulseLoad p free = seg p d.us - 1 := by
  simp [Block.pulseLoad, h]

theorem pulseLoad_of_absent {b : Block} (h : 72 ≤ b.idx.toNat) (p : Params) (free : Nat) : b.pulseLoad p free = free := by
  simp [Block.pulseLoad, (read_eq_none_iff _ _).mpr h]

theorem readsAbsent_iff (b : Block) : b.readsAbsent = true ↔ b.cnt = 0 ∧ b.st = .dh ∧ 72 ≤ b.idx.toNat := by
  simp [Block.readsAbsent, and_assoc]

theorem us_le_tGap (d : LowPulse) : d.us ≤ tGap := by cases d <;> decide

/-- Everything an edge of a transmission can do to the block of the machine. Only a read beyond the buffer makes the width
of `cnt` count. -/
theorem tick_cases (s : State) :
    (s.blk.cnt ≠ 0 ∧ s.tick.blk = { s.blk.clearPulses with cnt := s.blk.cnt - 1 }) ∨
    (s.blk.cnt = 0 ∧
      ((s.blk.st = .idle ∧ s.tick.blk = s.blk.clearPulses) ∨
       (s.blk.st = .l1h ∧ s.tick.blk = s.blk.movedTo s.params .l1l l1Low s.blk.idx s.blk.rep) ∨
       (s.blk.st = .l1l ∧ s.tick.blk = s.blk.movedTo s.params .l2h l2High s.blk.idx s.blk.rep) ∨
       (s.blk.st = .l2h ∧ s.tick.blk = s.blk.movedTo s.params .l2l l2Low s.blk.idx s.blk.rep) ∨
       (s.blk.st = .l2l ∧ s.tick.blk = s.blk.movedTo s.params .dh tHigh 0 s.blk.rep) ∨
       (s.blk.st = .dh ∧ ∃ d, PulseBuffer.read s.blk.buf s.blk.idx.toNat = some d ∧
          s.tick.blk = s.blk.movedTo s.params .dl d.us s.blk.idx s.blk.rep) ∨
       (s.blk.st = .dh ∧ 72 ≤ s.blk.idx.toNat ∧
          s.tick.blk = { s.blk.movedTo s.params .dl 0 s.blk.idx s.blk.rep with
            cnt := Config.absentLoad s.freeReads % 2 ^ cntW s.params }) ∨
       (s.blk.st = .dl ∧ s.blk.idx.toNat + 1 < s.blk.len ∧
          s.tick.blk = s.blk.movedTo s.params .dh tHigh (s.blk.idx + 1) s.blk.rep) ∨
       (s.blk.st = .dl ∧ ¬ s.blk.idx.toNat + 1 < s.blk.len ∧
          s.tick.blk = s.blk.movedTo s.params .th l2High s.blk.idx s.blk.rep) ∨
       (s.blk.st = .th ∧ s.tick.blk = s.blk.movedTo s.params .tl l2Low s.blk.idx s.blk.rep) ∨
       (s.blk.st = .tl ∧ s.tick.blk = s.blk.movedTo s.params .gap tGap s.blk.idx s.blk.rep) ∨
       (s.blk.st = .gap ∧ s.blk.rep = 0 ∧ s.tick.blk = s.blk.movedTo s.params .l1h l1High s.blk.idx 1) ∨
       (s.blk.st = .gap ∧ s.blk.rep = 1 ∧ s.tick.blk = { s.blk.pulseDone with st := .idle }))) := by
  have hset : s.tick.blk = (s.setBlk (s.blk.tick s.params (Config.absentLoad s.freeReads))).blk := rfl
  have fits := s.cntFits
  have moved : ∀ {c : Block} {st : SeqState} {d : Nat} {idx : BitVec 7} {rep : BitVec 1}, d ≤ tGap →
      c = s.blk.movedTo s.params st d idx rep → (s.setBlk c).blk = s.blk.movedTo s.params st d idx rep := by
    rintro c st d idx rep hd rfl
    exact setBlk_of_fits (load_fits s.params hd)
  rw [hset]
  rcases block_tick_cases s.params (Config.absentLoad s.freeReads) s.blk with
    ⟨hc, e⟩ | ⟨hc, ⟨h, e⟩ | ⟨h, e⟩ | ⟨h, e⟩ | ⟨h, e⟩ | ⟨h, e⟩ | ⟨h, e⟩ | ⟨h, hl, e⟩ | ⟨h, hl, e⟩ | ⟨h, e⟩ | ⟨h, e⟩ |
      ⟨h, hr, e⟩ | ⟨h, hr, e⟩⟩
  · refine .inl ⟨hc, ?_⟩
    rw [e]
    exact setBlk_of_fits (lt_of_le_of_lt (Nat.sub_le _ _) fits)
  · simp only [h, hc, e, true_and, reduceCtorEq, false_and, or_false]
    exact .inr (setBlk_of_fits fits)
  case inr.inr.inr.inr.inr.inr.inl =>
    simp only [h, hc, true_and, reduceCtorEq, false_and, false_or, or_false, ne_eq, not_true_eq_false]
    cases hd : PulseBuffer.read s.blk.buf s.blk.idx.toNat with
    | some d => exact .inl ⟨d, rfl, moved (us_le_tGap d) (by rw [e, pulseLoad_of_read hd]; rfl)⟩
    | none =>
      have ha := (read_eq_none_iff _ _).mp hd
      refine .inr ⟨ha, ?_⟩
      rw [e, pulseLoad_of_absent ha]
      rfl
  case inr.inr.inr.inr.inr.inr.inr.inr.inr.inr.inr.inr =>
    simp only [h, hc, hr, e, true_and, reduceCtorEq, false_and, false_or, ne_eq, not_true_eq_false]
    exact .inr (setBlk_of_fits fits)
  all_goals
    have hm := moved (by decide) e
    simp_all only [true_and, reduceCtorEq, false_and, or_false, ne_eq, not_true_eq_false, not_false_eq_true,
      true_or, or_true, and_self]

/-! ### Runs -/

@[simp] theorem runFor_zero (s : State) : runFor 0 s = some s := rfl

theorem runFor_succ_of_step {s t : State} (h : step s = .next t) (k : Nat) : runFor (k + 1) s = runFor k t := by
  simp [runFor, h]

theorem runFor_succ_cases {s u : State} {k : Nat} (h : runFor (k + 1) s = some u) :
    ∃ t, step s = .next t ∧ runFor k t = some u := by
  unfold runFor at h
  split at h
  · next t ht => exact ⟨t, ht, h⟩
  · cases h
  · cases h

/-- A run of `m + k` steps is a run of `m` steps and then one of `k`. -/
theorem runFor_add (m k : Nat) (s : State) : runFor (m + k) s = (runFor m s).bind (runFor k) := by
  induction m generalizing s with
  | zero => simp
  | succ m ih =>
    rw [show m + 1 + k = (m + k) + 1 by omega]
    cases h : step s with
    | next t => rw [runFor_succ_of_step h, runFor_succ_of_step h, ih]
    | fault r => simp [runFor, h]
    | refused r => simp [runFor, h]

/-- An ended script stays ended: the host presents nothing for the rest of the run. -/
theorem runFor_script_nil {k : Nat} {s t : State} (hs : s.script = []) (h : runFor k s = some t) : t.script = [] := by
  induction k generalizing s with
  | zero => simp at h; exact h ▸ hs
  | succ k ih =>
    obtain ⟨u, hu, hk⟩ := runFor_succ_cases h
    exact ih (by rw [(step_next_cases hu).2.1, hs]; rfl) hk

theorem noResetFor_succ {s : State} {k : Nat} (h0 : s.pins.rst = false)
    (h : ∀ t, step s = .next t → NoResetFor k t) : NoResetFor (k + 1) s := by
  intro j u hj hu
  cases j with
  | zero => simp only [runFor_zero, Option.some.injEq] at hu; exact hu ▸ h0
  | succ j =>
    obtain ⟨t, ht, hk⟩ := runFor_succ_cases hu
    exact h t ht j u (by omega) hk

/-- A host whose script has ended asserts no reset. -/
theorem noResetFor_of_script_nil {s : State} (hs : s.script = []) (k : Nat) : NoResetFor k s := by
  intro j t _ h
  rw [pins_of_script_nil (runFor_script_nil hs h)]
  rfl

end Machine

end Sys2Proof
end

