-- ==== Sys2Proof/Laws/PerInstr.lean ====
section
/-! SUPPORT. Statements per command about commands as syntax: the word of a command carries its code of R51 in `CMD[2:0]`
(30_encoding.md R50), and every command is well formed (60_exceptions.md R99). -/

namespace Sys2Proof.Laws.OpcodeInWord

def Statement (i : Instr) : Prop := wordOp (encode i) = i.opcode ∧ i.wellFormed = true

theorem deviceOn (ctrl dev : Uint) : Statement (.deviceOn ctrl dev) := ⟨wordOp_cmdWord _ _ _ _, rfl⟩
theorem deviceOff (ctrl dev : Uint) : Statement (.deviceOff ctrl dev) := ⟨wordOp_cmdWord _ _ _ _, rfl⟩
theorem groupOn (ctrl : Uint) : Statement (.groupOn ctrl) := ⟨wordOp_cmdWord _ _ _ _, rfl⟩
theorem groupOff (ctrl : Uint) : Statement (.groupOff ctrl) := ⟨wordOp_cmdWord _ _ _ _, rfl⟩
theorem deviceDim (ctrl dev level : Uint) : Statement (.deviceDim ctrl dev level) := ⟨wordOp_cmdWord _ _ _ _, rfl⟩
theorem rsv0 : Statement .rsv0 := ⟨wordOp_cmdWord _ _ _ _, rfl⟩
theorem rsv6 : Statement .rsv6 := ⟨wordOp_cmdWord _ _ _ _, rfl⟩
theorem rsv7 : Statement .rsv7 := ⟨wordOp_cmdWord _ _ _ _, rfl⟩

end Sys2Proof.Laws.OpcodeInWord
end

