-- ==== Sys2Proof/Tests/Slice0.lean ====
section
/-! SUPPORT. The model's own tests, with expected results from spec/ (95_test_vectors.md and the rules named), and for each
obligation with hypotheses a witness that meets them. -/

namespace Sys2Proof.Tests

open Sys2Proof.Machine

/-! ### Helpers -/

/-- The next state of an outcome. -/
def next? : Host.Outcome State Fault Refusal → Option State
  | .next t => some t
  | .fault _ => none
  | .refused _ => none

theorem exists_next {o : Host.Outcome State Fault Refusal} {q : State → Bool} (h : (next? o).any q = true) :
    ∃ t, o = .next t ∧ q t = true := by
  cases o <;> simp_all [next?]

/-- `CYCLES_PER_US` = 1, `STATUS_EN` = 1 and `DIM_SCALE` = `INTENT`. -/
def intent : Params := { Params.reference with dimScale := .intent }

/-- The reset state with a host that does `script`. -/
def hosted (script : List HostMove) : State := { State.reset with script := script }

/-- A block in the middle of a transmission, with a quiet host. -/
def inSegment (st : SeqState) (cnt : Nat) (idx : BitVec 7) (rep : BitVec 1) : State :=
  State.reset.setBlk { State.reset.blk with st := st, cnt := cnt, idx := idx, rep := rep }

/-- The same in the transmission of a dim command. -/
def inDimSegment (st : SeqState) (cnt : Nat) (idx : BitVec 7) (rep : BitVec 1) : State :=
  State.reset.setBlk { State.reset.blk with st := st, cnt := cnt, idx := idx, rep := rep, isDim := true }

/-- `S` of the vectors. -/
abbrev S : LowPulse := .short
/-- `L` of the vectors. -/
abbrev L : LowPulse := .long

/-! ### Well-formedness: an ill-formed term for each check -/

theorem test_params_refused : Params.wellFormed { Params.reference with cyclesPerUs := 0 } = false := by decide
theorem test_params_accepted : Params.wellFormed Params.reference = true := by decide
theorem test_word_refused : wordWellFormed (2 ^ 99) = false := by decide
theorem test_wide_word_not_decoded : decodeTableWord 104 (2 ^ 99) = none := by decide
theorem test_any_operand_well_formed : (Instr.deviceDim 0xFFFFFFFF 0xFFFFFFFF 0xFFFFFFFF).wellFormed = true := by decide

/-! ### Decoding: words written out from 30_encoding.md R50 and R51 -/

-- ctrl = 1 stands at bit 3, dev = 3 at bits 35 and 36.
theorem test_decode_deviceOn : decode 0b1100000000000000000000000000000001001#99 = .deviceOn 1 3 := by decide
theorem test_decode_deviceOff : decode 0b1100000000000000000000000000000001010#99 = .deviceOff 1 3 := by decide
theorem test_decode_groupOn : decode 0b101011#99 = .groupOn 5 := by decide
theorem test_decode_groupOff : decode 0b000100#99 = .groupOff 0 := by decide
-- level = 100 at bit 67, dev = 2 at bit 36, ctrl = 5 at bit 3.
theorem test_decode_deviceDim : decode 0x000000320000000100000002D#99 = .deviceDim 5 2 100 := by decide
theorem test_decode_rsv0 : decode 0b1000#99 = .rsv0 := by decide
theorem test_decode_rsv6 : decode 0b1110#99 = .rsv6 := by decide
theorem test_decode_rsv7 : decode 0b1111#99 = .rsv7 := by decide
theorem test_table_words : (List.range 8).map (decodeTableWord 8) =
    [some .rsv0, some (.deviceOn 0 0), some (.deviceOff 0 0), some (.groupOn 0), some (.groupOff 0),
     some (.deviceDim 0 0 0), some .rsv6, some .rsv7] := by decide

/-! ### Operands (95_test_vectors.md section 2.1) -/

theorem test_ctrl26 : [ctrl26 0x03FFFFFF, ctrl26 0x04000000, ctrl26 0xFFFFFFFF, ctrl26 0x0AAAAAAA] =
    [0x3FFFFFF, 0, 0x3FFFFFF, 0x2AAAAAA] := by decide
theorem test_dev4 : [dev4 15, dev4 16, dev4 19, dev4 0xFFFFFFFF] = [15, 0, 3, 15] := by decide
theorem test_bits_4 : [bits 4 3, bits 4 9, bits 4 16] =
    [[.zero, .zero, .one, .one], [.one, .zero, .zero, .one], [.zero, .zero, .zero, .zero]] := by decide
theorem test_dim_intent :
    [0, 6, 7, 13, 14, 50, 66, 67, 99, 100, 101, 106, 107, 200, 4294967295].map (dim4 intent) =
      [0, 0, 1, 1, 2, 7, 9, 10, 14, 15, 15, 15, 0, 14, 6] := by decide
theorem test_dim_literal : [0, 7, 100, 4294967295].map (dim4 Params.reference) = [0, 0, 0, 0] := by decide

/-! ### Frames and pulse sequences (95_test_vectors.md sections 1 and 2.2) -/

theorem test_word_deviceOn : frameWord (packDeviceOn 1 3) = some 0x00000053 := by decide
theorem test_word_deviceOff : frameWord (packDeviceOff 1 3) = some 0x00000043 := by decide
theorem test_word_groupOn : frameWord (packGroupOn 5) = some 0x00000170 := by decide
theorem test_word_groupOff : frameWord (packGroupOff 0) = some 0x00000020 := by decide
theorem test_word_all_ones : frameWord (packDeviceOn 0x3FFFFFF 15) = some 0xFFFFFFDF := by decide
theorem test_word_truncated : frameWord (packDeviceOn (ctrl26 0x4000000) (dev4 16)) = some 0x00000010 := by decide
/-- The tail of `DeviceOn(1, 3)`, `buf[50..63]` (R65). -/
theorem test_pulses_deviceOn : ((next? (exec (.deviceOn 1 3) State.reset)).any fun t =>
    (t.blk.buf.toList.drop 50).take 14 == [L, S, S, L, L, S, S, L, S, L, L, S, L, S]) = true := by decide
theorem test_pulses_deviceOff : ((next? (exec (.deviceOff 1 3) State.reset)).any fun t =>
    (t.blk.buf.toList.drop 50).take 14 == [L, S, S, L, S, L, S, L, S, L, L, S, L, S]) = true := by decide
theorem test_pulses_groupOn : ((next? (exec (.groupOn 0) State.reset)).any fun t =>
    (t.blk.buf.toList.drop 50).take 14 == [S, L, L, S, L, S, S, L, S, L, S, L, S, L]) = true := by decide
theorem test_pulses_groupOff : ((next? (exec (.groupOff 0) State.reset)).any fun t =>
    (t.blk.buf.toList.drop 50).take 14 == [S, L, L, S, S, L, S, L, S, L, S, L, S, L]) = true := by decide
/-- `DeviceDim(5, 2, 100)`, entries 46 to 71: `LSSLLSSLSSSLSLLSSLSLSLSLSL` under `LITERAL`. -/
theorem test_pulses_dim_literal : ((next? (exec (.deviceDim 5 2 100) State.reset)).any fun t =>
    t.blk.isDim && t.blk.buf.toList.drop 46 ==
      [L, S, S, L, L, S, S, L, S, S, S, L, S, L, L, S, S, L, S, L, S, L, S, L, S, L]) = true := by decide
/-- `DeviceDim(5, 2, 100)` under `INTENT`: the dim field is 15. -/
theorem test_pulses_dim_intent : ((next? (exec (.deviceDim 5 2 100) (State.resetIn intent))).any fun t =>
    t.blk.buf.toList.drop 64 == [L, S, L, S, L, S, L, S]) = true := by decide
theorem test_reserved_drops : ((next? (exec .rsv7 State.reset)).any fun t =>
    t.cmdErr && !t.busy && !t.txOut && t.cmdReady && t.blk.buf == State.reset.blk.buf) = true := by decide
theorem test_reserved_zero_word : ((next? (exec .rsv0 State.reset)).any fun t => t.event == some .cmdErr) = true := by decide
theorem test_reserved_six_idle_after : ((next? (exec .rsv6 State.reset)).bind fun t => next? (step t)).any
    (fun u => !u.cmdErr) = true := by decide

/-! ### The step (41_transmitter.md R81, R90; 95_test_vectors.md sections 2.3 and 2.4) -/

theorem test_first_cycle : ((next? (step (hosted [.command 1 1 3 77]))).any fun t =>
    t.txOut && t.status && t.irqMask && t.busy && t.blk.cnt == 274 && t.script == []) = true := by decide
/-- `CYCLES_PER_US` = 16: `L1H` lasts 4400 cycles; `STATUS_EN` = 0: `status` is 0. -/
theorem test_other_build : ((next? (exec (.deviceOn 1 3) (State.resetIn
    { cyclesPerUs := 16, statusEn := false, dimScale := .literal }))).any fun t =>
    t.blk.cnt == 4399 && !t.status && t.txOut) = true := by decide
theorem test_latch1_low : ((next? (step (inSegment .l1h 0 0 0))).any fun t =>
    t.blk.st == .l1l && t.blk.cnt == 9899 && !t.txOut) = true := by decide
theorem test_latch2_high : ((next? (step (inSegment .l1l 0 0 0))).any fun t =>
    t.blk.st == .l2h && t.blk.cnt == 274) = true := by decide
theorem test_latch2_low : ((next? (step (inSegment .l2h 0 0 0))).any fun t =>
    t.blk.st == .l2l && t.blk.cnt == 2674) = true := by decide
theorem test_data_starts : ((next? (step (inSegment .l2l 0 63 0))).any fun t =>
    t.blk.st == .dh && t.blk.idx == 0 && t.blk.cnt == 274) = true := by decide
theorem test_data_low_short : ((next? (step (inSegment .dh 0 71 0))).any fun t =>
    t.blk.st == .dl && t.blk.idx == 71 && t.blk.cnt == 274) = true := by decide
theorem test_data_next : ((next? (step (inSegment .dl 0 62 0))).any fun t =>
    t.blk.st == .dh && t.blk.idx == 63) = true := by decide
theorem test_data_ends : ((next? (step (inSegment .dl 0 63 0))).any fun t =>
    t.blk.st == .th && t.blk.idx == 63) = true := by decide
theorem test_dim_data_goes_on : ((next? (step (inDimSegment .dl 0 63 0))).any fun t =>
    t.blk.st == .dh && t.blk.idx == 64) = true := by decide
theorem test_dim_data_ends : ((next? (step (inDimSegment .dl 0 71 0))).any fun t =>
    t.blk.st == .th && t.blk.idx == 71) = true := by decide
theorem test_trailing_low : ((next? (step (inSegment .th 0 63 0))).any fun t =>
    t.blk.st == .tl && t.blk.cnt == 2674) = true := by decide
theorem test_gap : ((next? (step (inSegment .tl 0 63 0))).any fun t =>
    t.blk.st == .gap && t.blk.cnt == 9999 && !t.status && t.irqMask) = true := by decide
theorem test_second_repeat : ((next? (step (inSegment .gap 0 63 0))).any fun t =>
    t.blk.st == .l1h && t.blk.rep == 1 && !t.done) = true := by decide
theorem test_done : ((next? (step (inSegment .gap 0 63 1))).any fun t =>
    t.done && !t.busy && !t.irqMask && t.cmdReady && t.blk.idx == 63 && t.blk.rep == 1) = true := by decide
theorem test_counts : ((next? (step (inSegment .gap 5 63 1))).any fun t => t.blk.cnt == 4 && t.busy) = true := by decide
/-- `rst` = 1 in `DH`: the next cycle has all outputs 0, and the buffer is kept. -/
theorem test_reset_aborts : ((next? (step { inSegment .dh 3 7 1 with script := [.reset 1] })).any fun t =>
    t.blk == State.reset.blk && !t.irqMask && !t.done && t.script == []) = true := by decide
/-- `rst` = 1 and `cmd_valid` = 1 at the same edge: not accepted. -/
theorem test_reset_wins : ((next? (step (hosted
    [.drive { rst := true, cmdValid := true, cmdOp := 1, cmdCtrl := 1, cmdDev := 3, cmdLevel := 0 }]))).any
    fun t => !t.busy) = true := by decide
/-- A command held while busy stays presented. -/
theorem test_held : ((next? (step { inSegment .gap 5 63 1 with script := [.command 3 0 9 0] })).any fun t =>
    t.script == [.command 3 0 9 0] && t.blk.cnt == 4) = true := by decide
/-- An index only a power-up register can hold (R119): the machine goes on, and a reset one edge later acts (R116). -/
theorem test_absent_entry_goes_on : ((next? (step (inSegment .dh 0 72 0))).any fun t =>
    t.blk.st == .dl && t.blk.idx == 72 && t.freeReads == 1) = true := by decide
theorem test_reset_after_absent_entry : (((next? (step (inSegment .dh 0 127 0))).bind fun t =>
    next? (step { t with script := [.reset 1] })).any fun u => u.blk == State.reset.blk) = true := by decide
/-- The highest value of the 14 bits of `cnt` at `CYCLES_PER_US` = 1 (R17), and the next, which the register drops. -/
theorem test_counter_width : cntW Params.reference = 14 ∧ (inSegment .dl 16383 0 0).blk.cnt = 16383 ∧
    (inSegment .dl 16384 0 0).blk.cnt = 0 := by decide
theorem test_fetch_word : ((next? (step (State.reset.withFetchWord 8 1))).any fun t => t.txOut) = true := by decide
theorem test_reset_directive_counts : ((next? (step (hosted [.idle 0, .reset 2, .idle 1]))).any fun t =>
    t.script == [.reset 1, .idle 1] && t.pins.rst && !t.cmdReady) = true := by decide
theorem test_wait_done_ends : ((next? (step { inSegment .gap 0 63 1 with script := [.waitDone, .idle 1] })).any fun t =>
    t.script == [.idle 1]) = true := by decide

/-! ### Witnesses: the hypotheses of each obligation are met -/

/-- `IDLE` with no reset: `DeviceOnAccepted`, `DeviceOffAccepted`, `GroupOnAccepted`, `GroupOffAccepted`,
`DeviceDimAccepted`, `ReservedCommandDropped`, `IdleEdgeClearsPulses`. -/
theorem witness_idle : State.reset.pins.rst = false ∧ State.reset.blk.st = .idle ∧ State.reset.pins.cmdValid = false := by
  decide

theorem witness_dim_scales : State.reset.params.dimScale = .literal ∧ (State.resetIn intent).params.dimScale = .intent ∧
    (State.resetIn intent).pins.rst = false ∧ (State.resetIn intent).blk.st = .idle := by decide

/-- `StepRunsPresentedCommand`: a command on the port, in `IDLE` and in a transmission. -/
theorem witness_StepRunsPresentedCommand :
    (hosted [.command 1 1 3 77]).pins.cmdValid = true ∧
    decode (hosted [.command 1 1 3 77]).pins.word = .deviceOn 1 3 ∧
    ({ inSegment .dh 0 72 0 with script := [.command 1 1 3 77] } : State).pins.cmdValid = true := by decide

/-- `AcceptanceCondition`: both sides of the condition, and a command line at the head of the script, ready and not. -/
theorem witness_AcceptanceCondition :
    (hosted [.command 6 1 3 0]).accepts = true ∧ (inSegment .dl 1 0 0).accepts = false ∧
    (∃ t, step (hosted [.command 6 1 3 0]) = .next t) ∧
    (∃ t, step { inSegment .dl 1 0 0 with script := [.command 6 1 3 0] } = .next t) :=
  ⟨by decide, by decide, ⟨_, rfl⟩, ⟨_, rfl⟩⟩

/-- `BusyBlockHoldsCommandOff`: a busy block and a held command line. -/
theorem witness_BusyBlockHoldsCommandOff :
    (inSegment .gap 5 63 1).blk.st ≠ .idle ∧ (∃ t, exec (.groupOn 0) (inSegment .gap 5 63 1) = .next t) ∧
    ∃ t, step { inSegment .gap 5 63 1 with script := [.command 3 0 9 0] } = .next t :=
  ⟨by decide, ⟨_, rfl⟩, ⟨_, rfl⟩⟩

/-- `InputsIgnoredWhileBusy`: two machines that differ in their scripts. -/
theorem witness_InputsIgnoredWhileBusy :
    (inSegment .l1h 3 0 0).freeReads =
      ({ inSegment .l1h 3 0 0 with script := [.command 5 5 2 100] } : State).freeReads ∧
    (inSegment .l1h 3 0 0).blk.st ≠ .idle ∧
    (inSegment .l1h 3 0 0).pins.rst = ({ inSegment .l1h 3 0 0 with script := [.command 5 5 2 100] } : State).pins.rst ∧
    (∃ t, step (inSegment .l1h 3 0 0) = .next t) ∧
    ∃ v, step { inSegment .l1h 3 0 0 with script := [.command 5 5 2 100] } = .next v :=
  ⟨by decide, by decide, by decide, ⟨_, rfl⟩, ⟨_, rfl⟩⟩

/-- `ExecChangesOnlyTheBlock`: the count of free values at its boundary, the indexes 71 and 72. -/
theorem witness_ExecChangesOnlyTheBlock : (∃ t, exec .rsv6 State.reset = .next t) ∧
    (∃ t, exec .rsv6 (inSegment .dh 0 71 0) = .next t ∧ (t.freeReads == 0) = true) ∧
    ∃ t, exec .rsv6 (inSegment .dh 0 72 0) = .next t ∧ (t.freeReads == 1) = true :=
  ⟨⟨_, rfl⟩, exists_next (by decide), exists_next (by decide)⟩

theorem witness_ValidCommandNeverErrs :
    startsTransmission (.deviceDim 0xFFFFFFFF 0xFFFFFFFF 0xFFFFFFFF) = true ∧
    ∃ t, exec (.deviceDim 0xFFFFFFFF 0xFFFFFFFF 0xFFFFFFFF) State.reset = .next t := ⟨by decide, ⟨_, rfl⟩⟩

/-- `AcceptedLength`: a non-dim and a dim command. -/
theorem witness_AcceptedLength :
    (∃ F t, frame State.reset.params (.groupOff 0) = some F ∧ exec (.groupOff 0) State.reset = .next t) ∧
    ∃ F t, frame State.reset.params (.deviceDim 0 0 0) = some F ∧ exec (.deviceDim 0 0 0) State.reset = .next t :=
  ⟨⟨_, _, rfl, rfl⟩, ⟨_, _, rfl, rfl⟩⟩

/-- `SameCommandSamePulses`: two states with different buffers and pulses. -/
theorem witness_SameCommandSamePulses :
    startsTransmission (.groupOn 5) = true ∧ (hosted [.command 3 5 0 0]).accepts = true ∧
    ({ hosted [.command 3 5 0 0] with
      blk := { State.reset.blk with buf := Vector.replicate 72 .long, doneR := true } } : State).accepts = true ∧
    (∃ t, exec (.groupOn 5) (hosted [.command 3 5 0 0]) = .next t) ∧
    ∃ v, exec (.groupOn 5) { hosted [.command 3 5 0 0] with
      blk := { State.reset.blk with buf := Vector.replicate 72 .long, doneR := true } } = .next v :=
  ⟨by decide, by decide, by decide, ⟨_, rfl⟩, ⟨_, rfl⟩⟩

theorem witness_CommandsDifferOnlyInOnFlag :
    ∃ on off gon goff dim, frame intent (.deviceOn 1 3) = some on ∧ frame intent (.deviceOff 1 3) = some off ∧
      frame intent (.groupOn 1) = some gon ∧ frame intent (.groupOff 1) = some goff ∧
      frame intent (.deviceDim 1 3 50) = some dim := ⟨_, _, _, _, _, rfl, rfl, rfl, rfl, rfl⟩

/-- `IdentifiersTruncated`: different inputs that agree in their low bits. -/
theorem witness_IdentifiersTruncated :
    (0x4000000 : Uint).toNat % 2 ^ 26 = (0 : Uint).toNat % 2 ^ 26 ∧
    (16 : Uint).toNat % 2 ^ 4 = (0 : Uint).toNat % 2 ^ 4 := by decide

/-- `LiteralDimIsZero` and `IntentDimFormula`: a build of each scale, and levels at the ends of the range. -/
theorem witness_dim_builds : Params.reference.dimScale = .literal ∧ intent.dimScale = .intent ∧
    State.reset.params = Params.reference ∧
    (0 : Uint).toNat ≤ (106 : Uint).toNat ∧ (106 : Uint).toNat ≤ 106 := by decide

theorem witness_BitsMostSignificantFirst : 0 < 26 ∧ 25 < 26 := by decide

theorem witness_ControllerExpansionInjective :
    expand (frameOf 7 .zero .one 3 []) = expand (frameOf 7 .zero .one 3 []) := rfl

/-- `ExpansionPairs` and `SymbolsRecoveredFromPulses`: a frame with each symbol. -/
theorem witness_pulse_pairs :
    ([.zero, .one, .dim] : Frame)[2]? = some .dim ∧
    (expand [.zero, .one, .dim])[2 * 2]? = some .short ∧ (expand [.zero, .one, .dim])[2 * 2 + 1]? = some .short := by decide

/-- `LowTimeOfCommands`, `TransmissionDurations`, `RisingEdgesPerCommand`: a frame of each length. -/
theorem witness_frames : (∃ F, frame Params.reference (.deviceOff 1 3) = some F) ∧
    ∃ F, frame Params.reference (.deviceDim 5 2 100) = some F := ⟨⟨_, rfl⟩, ⟨_, rfl⟩⟩

theorem witness_CounterCountsDown : (inSegment .tl 2674 63 1).pins.rst = false ∧
    (inSegment .tl 2674 63 1).blk.st ≠ .idle ∧ (inSegment .tl 2674 63 1).blk.cnt ≠ 0 := by decide

/-- `SegmentLastsExactly`: an edge that enters a segment, and a segment so entered with no reset ahead. -/
theorem witness_SegmentLastsExactly :
    (∃ t, step (inSegment .l1h 0 0 0) = .next t ∧
      (decide (t.blk.st ≠ .l1h) && t.blk.segmentUs == some 9900) = true) ∧
    (inSegment .l1h 274 0 0).params.wellFormed = true ∧ (inSegment .l1h 274 0 0).blk.segmentUs = some 275 ∧
    (inSegment .l1h 274 0 0).blk.cnt = seg (inSegment .l1h 274 0 0).params 275 - 1 ∧
    NoResetFor (seg (inSegment .l1h 274 0 0).params 275) (inSegment .l1h 274 0 0) :=
  ⟨exists_next (by decide), by decide, by decide, by decide, noResetFor_of_script_nil rfl _⟩

/-- `TransitionTable`: each row, with the index at its bounds (127, that of the register, reads no entry). -/
theorem witness_TransitionTable :
    (∀ st ∈ [SeqState.l1h, .l1l, .l2h, .l2l, .dh, .dl, .th, .tl, .gap], ∀ i ∈ [(0 : BitVec 7), 62, 63, 71, 127], ∀ r : BitVec 1,
      (inSegment st 0 i r).pins.rst = false ∧ (inSegment st 0 i r).blk.cnt = 0 ∧ (inSegment st 0 i r).blk.st ≠ .idle) ∧
    PulseBuffer.read (inSegment .dh 0 71 0).blk.buf 71 = some .short ∧
    (inSegment .dl 0 62 0).blk.idx.toNat + 1 < (inSegment .dl 0 62 0).blk.len ∧
    (inSegment .dl 0 63 0).blk.idx.toNat + 1 = (inSegment .dl 0 63 0).blk.len ∧
    (inDimSegment .dl 0 70 1).blk.idx.toNat + 1 < (inDimSegment .dl 0 70 1).blk.len ∧
    (inDimSegment .dl 0 71 1).blk.idx.toNat + 1 = (inDimSegment .dl 0 71 1).blk.len ∧
    (inDimSegment .dl 0 71 1).pins.rst = false ∧ (inDimSegment .dl 0 71 1).blk.st ≠ .idle := by decide

/-- `CriticalSectionEntry`: an `IDLE` cycle before a valid, a reserved and no command. -/
theorem witness_CriticalSectionEntry : State.reset.irqMask = false ∧ (∃ t, step State.reset = .next t) ∧
    (∃ t, step (hosted [.command 1 1 3 0]) = .next t ∧ t.irqMask = true) ∧
    ∃ t, step (hosted [.command 7 1 3 0]) = .next t ∧ (!t.irqMask) = true :=
  ⟨by decide, ⟨_, rfl⟩, exists_next (by decide), exists_next (by decide)⟩

/-- `CriticalSectionExit`: both kinds of edge, and one that stays inside. -/
theorem witness_CriticalSectionExit : (inSegment .gap 0 63 1).irqMask = true ∧
    (∃ t, step (inSegment .gap 0 63 1) = .next t ∧ (!t.irqMask) = true) ∧
    (∃ t, step { inSegment .dh 9 63 0 with script := [.reset 1] } = .next t ∧ (!t.irqMask) = true) ∧
    ∃ t, step (inSegment .gap 0 63 0) = .next t ∧ t.irqMask = true :=
  ⟨by decide, exists_next (by decide), exists_next (by decide), exists_next (by decide)⟩

/-- `DonePulse`, `PulseRegisters` and `PulsesNeverTogether`: a step to a `done` cycle, and one to a `cmd_err` cycle. -/
theorem witness_pulse_cycles :
    (∃ t, step (inSegment .gap 0 63 1) = .next t ∧ t.done = true) ∧
    (∃ t, step (hosted [.command 0 1 3 0]) = .next t ∧ t.cmdErr = true) ∧
    ∃ u, step { State.reset with blk := { State.reset.blk with doneR := true } } = .next u :=
  ⟨exists_next (by decide), exists_next (by decide), ⟨_, rfl⟩⟩

/-- `BufferWrittenOnlyByAcceptance`: a step that accepts nothing, and one that accepts a reserved command. -/
theorem witness_BufferWrittenOnlyByAcceptance :
    (inSegment .dl 4 2 0).accepts = false ∧ (∃ t, step (inSegment .dl 4 2 0) = .next t) ∧
    (hosted [.command 7 1 3 0]).presented = some .rsv7 ∧ startsTransmission .rsv7 = false ∧
    ∃ t, step (hosted [.command 7 1 3 0]) = .next t :=
  ⟨by decide, ⟨_, rfl⟩, by decide, by decide, ⟨_, rfl⟩⟩

/-- `TransmissionPlaysWave` and `NextAcceptanceAfterDone`: one command and then a quiet host, for a run of any length. -/
theorem witness_transmission (k : Nat) : (hosted [.command 1 1 3 0]).params.wellFormed = true ∧
    (hosted [.command 1 1 3 0]).blk.st = .idle ∧ (hosted [.command 1 1 3 0]).accepts = true ∧
    (hosted [.command 1 1 3 0]).presented = some (.deviceOn 1 3) ∧
    (∃ F, frame (hosted [.command 1 1 3 0]).params (.deviceOn 1 3) = some F) ∧
    NoResetFor (k + 1) (hosted [.command 1 1 3 0]) ∧
    ∃ t, runFor 1 (hosted [.command 1 1 3 0]) = some t :=
  ⟨by decide, by decide, by decide, by decide, ⟨_, rfl⟩,
    noResetFor_succ (by decide) fun t h =>
      noResetFor_of_script_nil (by rw [(step_next_cases h).2.1]; rfl) k,
    ⟨_, rfl⟩⟩

/-- `StaleEntriesUnobservable`: two machines in a non-dim transmission that differ in entries 64 to 71. -/
theorem witness_StaleEntriesUnobservable :
    Inv (inSegment .dl 3 63 0) ∧
    SameButStale (inSegment .dl 3 63 0)
      { inSegment .dl 3 63 0 with
        blk := { (inSegment .dl 3 63 0).blk with buf := Vector.ofFn fun j => if j.val < 64 then .short else .long } } ∧
    (∃ t, step (inSegment .dl 3 63 0) = .next t) ∧
    ∃ v, step { inSegment .dl 3 63 0 with
        blk := { (inSegment .dl 3 63 0).blk with buf := Vector.ofFn fun j => if j.val < 64 then .short else .long } } =
      .next v := by
  refine ⟨⟨by decide, by decide, ?_, by decide, by decide, by decide⟩, ⟨rfl, rfl, rfl, rfl, ?_⟩, ⟨_, rfl⟩, ⟨_, rfl⟩⟩
  · intro d h
    have hd : (inSegment .dl 3 63 0).blk.segmentUs = some 275 := by decide
    rw [hd] at h
    cases h
    decide
  · intro _ j hj
    have hj : j < 64 := hj
    rw [read_of_lt _ (by omega), read_of_lt _ (by omega)]
    simp [inSegment, State.reset, Block.reset, hj]

theorem witness_CounterWidthIsLeast : Params.reference.wellFormed = true ∧
    (inSegment .gap 0 0 0).blk.segmentUs = some 10000 := by decide

/-- `ResetActionWins`, `ResetAbortsTransmission`, `OneResetEdgeEstablishesInv`: a reset in a power-up state that is in no
way a state of the invariant. -/
theorem witness_reset_edge :
    ({ inSegment .dh 16383 127 1 with script := [.reset 1] } : State).pins.rst = true ∧
    ({ inSegment .dh 16383 127 1 with script := [.reset 1] } : State).blk.st ≠ .idle ∧
    ({ inSegment .dh 16383 127 1 with script := [.reset 1] } : State).params.wellFormed = true ∧
    ∃ t, step { inSegment .dh 16383 127 1 with script := [.reset 1] } = .next t :=
  ⟨by decide, by decide, by decide, ⟨_, rfl⟩⟩

theorem witness_ParametersFixed : ∃ t, runFor 1 State.reset = some t := ⟨_, rfl⟩

/-- `StepKeepsInv`, `BufferIndexInRange`, `ResetStateSatisfiesInv`: a state of the invariant. -/
theorem witness_Inv : Inv State.reset ∧ (∃ t, step State.reset = .next t) ∧ State.reset.params.wellFormed = true :=
  ⟨⟨by decide, by decide, (by intro d h; cases h), by decide, by decide, by decide⟩, ⟨_, rfl⟩, by decide⟩

/-- `BufferIndexInRange`: the last entry's move, in a state of the invariant, with `len` = 64 and with `len` = 72. -/
theorem witness_BufferIndexInRange : (inSegment .dh 0 63 0).blk.idx.toNat < (inSegment .dh 0 63 0).blk.len ∧
    (inDimSegment .dh 0 71 0).blk.idx.toNat < (inDimSegment .dh 0 71 0).blk.len ∧ Inv (inDimSegment .dh 0 71 0) := by
  refine ⟨by decide, by decide, by decide, by decide, ?_, by decide, by decide, by decide⟩
  intro d h
  have hd : (inDimSegment .dh 0 71 0).blk.segmentUs = some 275 := by decide
  rw [hd] at h
  cases h
  decide

/-- `AbsentEntryReadsFreeValue`: the lowest and the highest index beyond the buffer, and a reset at the edge after. -/
theorem witness_AbsentEntryReadsFreeValue :
    (∀ i ∈ [(72 : BitVec 7), 127], (inSegment .dh 0 i 0).pins.rst = false ∧ (inSegment .dh 0 i 0).blk.st = .dh ∧
      (inSegment .dh 0 i 0).blk.cnt = 0 ∧ 72 ≤ (inSegment .dh 0 i 0).blk.idx.toNat) ∧
    ∃ t, step { inSegment .dh 0 72 0 with script := [.drive Pins.quiet, .reset 1] } = .next t ∧ t.pins.rst = true :=
  ⟨by decide, exists_next (by decide)⟩

/-- `DirectivesLast`: each directive at the head of a script, of several cycles, of one and of none. -/
theorem witness_DirectivesLast :
    (∀ n ∈ [0, 1, 2], liveMoves (hosted [.reset n, .waitDone]).script = liveMoves (.reset n :: [.waitDone]) ∧
      liveMoves (hosted [.idle n, .waitDone]).script = liveMoves (.idle n :: [.waitDone])) ∧
    liveMoves (hosted [.idle 0, .waitDone]).script = [.waitDone] := by decide

end Sys2Proof.Tests
end

section
/-! The outputs as functions of the registers and `rst` (10_state.md R28), and the edges that set the pulse registers (R27). -/

namespace Sys2Proof.Machine

/-! ### The outputs of a sequencer state -/

theorem level_iff (st : SeqState) : st.level = true ↔ st = .l1h ∨ st = .l2h ∨ st = .dh ∨ st = .th := by
  cases st <;> simp [SeqState.level]

theorem indicated_iff (st : SeqState) : st.indicated = true ↔ st ≠ .idle ∧ st ≠ .gap := by
  cases st <;> simp [SeqState.indicated]

theorem status_iff (s : State) :
    s.status = true ↔ s.params.statusEn = true ∧ s.blk.st ≠ .idle ∧ s.blk.st ≠ .gap := by
  rw [State.status, Bool.and_eq_true, indicated_iff]

theorem irqMask_iff (s : State) : s.irqMask = true ↔ s.blk.st ≠ .idle := decide_eq_true_iff

theorem busy_iff (s : State) : s.busy = true ↔ s.blk.st ≠ .idle := decide_eq_true_iff

/-- Settles O36, from one lemma for each output. -/
theorem outputFunctions : Obligations.OutputFunctions := fun s =>
  ⟨level_iff s.blk.st, status_iff s, irqMask_iff s, busy_iff s, cmdReady_iff s, rfl, rfl⟩

/-! ### The pulse registers after an edge -/

@[simp] theorem movedTo_st (b : Block) (p : Params) (st : SeqState) (d : Nat) (idx : BitVec 7) (rep : BitVec 1) :
    (b.movedTo p st d idx rep).st = st := rfl
@[simp] theorem movedTo_doneR (b : Block) (p : Params) (st : SeqState) (d : Nat) (idx : BitVec 7) (rep : BitVec 1) :
    (b.movedTo p st d idx rep).doneR = false := rfl
@[simp] theorem movedTo_errR (b : Block) (p : Params) (st : SeqState) (d : Nat) (idx : BitVec 7) (rep : BitVec 1) :
    (b.movedTo p st d idx rep).errR = false := rfl

theorem accepts_iff (s : State) :
    s.accepts = true ↔ s.pins.cmdValid = true ∧ s.blk.st = .idle ∧ s.pins.rst = false := by
  rw [State.accepts, Bool.and_eq_true, cmdReady_iff]

/-- An edge of a transmission either keeps the block busy with both pulses 0, or ends the second gap with `done_r` = 1. -/
theorem tick_busy_or_ends {s : State} (hb : s.blk.st ≠ .idle) :
    (s.tick.blk.st ≠ .idle ∧ s.tick.blk.doneR = false ∧ s.tick.blk.errR = false) ∨
    (s.blk.st = .gap ∧ s.blk.cnt = 0 ∧ s.blk.rep = 1 ∧ s.tick.blk = { s.blk.pulseDone with st := .idle }) := by
  rcases tick_cases s with
    ⟨-, e⟩ | ⟨hc, ⟨hi, -⟩ | ⟨-, e⟩ | ⟨-, e⟩ | ⟨-, e⟩ | ⟨-, e⟩ | ⟨-, _, -, e⟩ | ⟨-, -, e⟩ | ⟨-, -, e⟩ | ⟨-, -, e⟩ |
      ⟨-, e⟩ | ⟨-, e⟩ | ⟨-, -, e⟩ | ⟨hg, hr, e⟩⟩
  · exact .inl (by simp [e, hb])
  · exact absurd hi hb
  on_goal -1 => exact .inr ⟨hg, hc, hr, e⟩
  all_goals exact .inl (by simp [e])

theorem tick_errR {s : State} (hb : s.blk.st ≠ .idle) : s.tick.blk.errR = false := by
  rcases tick_busy_or_ends hb with ⟨-, -, he⟩ | ⟨-, -, -, e⟩
  · exact he
  · rw [e]; rfl

theorem tick_doneR_iff {s : State} (hb : s.blk.st ≠ .idle) : s.tick.blk.doneR = true ↔ s.tick.blk.st = .idle := by
  rcases tick_busy_or_ends hb with ⟨hst, hd, -⟩ | ⟨-, -, -, e⟩
  · simp [hst, hd]
  · simp [e]

theorem onIdle_doneR (s : State) : (onIdle s).blk.doneR = false := by
  rcases onIdle_blk_cases s with ⟨-, e⟩ | ⟨_, -, -, e⟩ | ⟨_, _, -, -, -, e⟩ <;> simp [e]

theorem onIdle_errR_iff (s : State) :
    (onIdle s).blk.errR = true ↔ ∃ i, s.presented = some i ∧ startsTransmission i = false := by
  rcases onIdle_blk_cases s with ⟨hp, e⟩ | ⟨i, hp, hv, e⟩ | ⟨i, _, hp, hv, -, e⟩ <;> simp [*]

theorem step_doneR_iff {s t : State} (h : step s = .next t) :
    t.blk.doneR = true ↔ s.pins.rst = false ∧ s.blk.st ≠ .idle ∧ t.blk.st = .idle := by
  obtain ⟨-, -, ⟨hr, e, -⟩ | ⟨-, hi, e, -⟩ | ⟨hr, hb, e, -⟩⟩ := step_next_cases h
  · simp [e, hr]
  · simp [e, hi, onIdle_doneR]
  · simp [e, hr, hb, tick_doneR_iff hb]

theorem step_errR_iff {s t : State} (h : step s = .next t) :
    t.blk.errR = true ↔ s.accepts = true ∧ ∃ i, s.presented = some i ∧ startsTransmission i = false := by
  rw [accepts_iff]
  obtain ⟨-, -, ⟨hr, e, -⟩ | ⟨hr, hi, e, -⟩ | ⟨-, hb, e, -⟩⟩ := step_next_cases h
  · simp [e, hr]
  · have hv : ∀ i, s.presented = some i → s.pins.cmdValid = true := fun i hp => (presented_some_iff.mp hp).1
    rw [e, onIdle_errR_iff]
    exact ⟨fun ⟨i, hp, hn⟩ => ⟨⟨hv i hp, hi, hr⟩, i, hp, hn⟩, And.right⟩
  · simp [e, hb, tick_errR hb]

/-- Settles O40, by the three kinds of edge. -/
theorem pulseRegisters : Obligations.PulseRegisters := fun _ _ h => ⟨step_doneR_iff h, step_errR_iff h⟩

end Sys2Proof.Machine
end

section
/-! The command word and its decoding (30_encoding.md R50, R51), and when a command is accepted (R49). -/

namespace Sys2Proof.Machine

/-! ### The command word -/

theorem getLsbD_cmdWord (op : Op) (ctrl dev level : Uint) (j : Nat) :
    (cmdWord op ctrl dev level).getLsbD j =
      if j < 3 then op.getLsbD j
      else if j < 35 then ctrl.getLsbD (j - 3)
      else if j < 67 then dev.getLsbD (j - 35)
      else level.getLsbD (j - 67) := by
  simp only [cmdWord, BitVec.getLsbD_append, show j - 3 < 32 ↔ j < 35 by omega, show j - 3 - 32 = j - 35 by omega,
    show j - 35 < 32 ↔ j < 67 by omega, show j - 35 - 32 = j - 67 by omega]

theorem getLsbD_wordOp (w : CmdWord) {j : Nat} (h : j < 3) : (wordOp w).getLsbD j = w.getLsbD j := by
  simp [wordOp, h]

theorem op_cases : ∀ op : Op, op = 0b000#3 ∨ op = 0b001#3 ∨ op = 0b010#3 ∨ op = 0b011#3 ∨ op = 0b100#3 ∨
    op = 0b101#3 ∨ op = 0b110#3 ∨ op = 0b111#3 := by decide

/-- `op` alone selects the command. -/
@[simp] theorem opcode_decode (w : CmdWord) : (decode w).opcode = wordOp w := by
  rcases op_cases (wordOp w) with h | h | h | h | h | h | h | h <;> simp [decode, h, Instr.opcode]

/-- Settles O4, from the bits of a concatenation and the code of a decoded command. -/
theorem wordFieldsAndSelection : Obligations.WordFieldsAndSelection :=
  ⟨getLsbD_cmdWord, fun w _ hj => by rw [opcode_decode, getLsbD_wordOp w hj]⟩

/-- Settles O3: the decoder compares `op` only, and the fields of a word are those it was made of. -/
theorem commandCodes : Obligations.CommandCodes := fun ctrl dev level => by
  refine ⟨?_, ?_, ?_, ?_, ?_, ?_, ?_, ?_⟩ <;> simp [decode]

/-! ### Acceptance -/

/-- A command line stays at the head of the script until an edge accepts it. -/
theorem scriptAfter_command (accepted done : Bool) (op : Op) (ctrl dev level : Uint) (rest : List HostMove) :
    scriptAfter accepted done (.command op ctrl dev level :: rest) =
      if accepted then rest else .command op ctrl dev level :: rest := by
  cases accepted <;> rfl

/-- While a command line is presented, `cmd_ready` alone decides the acceptance. -/
theorem accepts_of_command {s : State} {op : Op} {ctrl dev level : Uint} {rest : List HostMove}
    (h : s.script = .command op ctrl dev level :: rest) : s.accepts = s.cmdReady := by
  have hv : s.pins.cmdValid = true := by
    rw [pins_of_live (by rw [h, liveMoves_command])]
    rfl
  rw [State.accepts, hv, Bool.true_and]

/-- Settles O8, from the condition of R49 and what a step leaves of a command line. -/
theorem acceptanceCondition : Obligations.AcceptanceCondition := by
  refine ⟨fun s => ?_, fun s op ctrl dev level rest h => ⟨by rw [accepts_of_command h], fun t ht => ?_⟩⟩
  · rw [accepts_iff]
    tauto
  · obtain ⟨-, hscript, -⟩ := step_next_cases ht
    rw [hscript, h, scriptAfter_command, accepts_of_command h]

end Sys2Proof.Machine
end

section
/-! Operand assembly (30_encoding.md R52 to R54): truncation of the identifiers and the two scales of the dim operand. -/

namespace Sys2Proof.Machine

/-! ### Commands with the same frame -/

/-- A command acts through its frame in the build and its length alone. -/
theorem exec_eq_of_frame_eq {i j : Instr} {s : State} (hf : frame s.params i = frame s.params j)
    (hd : sendsDim i = sendsDim j) : exec i s = exec j s := by
  simp only [exec_eq_edge, State.edge, onAcceptance, hf, hd]

/-! ### Identifiers -/

theorem ctrl26_toNat (c : Uint) : (ctrl26 c).toNat = c.toNat % 2 ^ 26 := BitVec.toNat_setWidth 26 c

theorem dev4_toNat (d : Uint) : (dev4 d).toNat = d.toNat % 2 ^ 4 := BitVec.toNat_setWidth 4 d

theorem ctrl26_congr {c c' : Uint} (h : c.toNat % 2 ^ 26 = c'.toNat % 2 ^ 26) : ctrl26 c = ctrl26 c' :=
  BitVec.eq_of_toNat_eq (by rw [ctrl26_toNat, ctrl26_toNat, h])

theorem dev4_congr {d d' : Uint} (h : d.toNat % 2 ^ 4 = d'.toNat % 2 ^ 4) : dev4 d = dev4 d' :=
  BitVec.eq_of_toNat_eq (by rw [dev4_toNat, dev4_toNat, h])

/-- Settles O23: the frames of the commands read their identifiers through the truncation only. -/
theorem identifiersTruncated : Obligations.IdentifiersTruncated := by
  refine ⟨fun c => ⟨ctrl26_toNat c, BitVec.getLsbD_setWidth 26 c⟩,
    fun d => ⟨dev4_toNat d, BitVec.getLsbD_setWidth 4 d⟩, fun c c' d d' s hc hd => ?_⟩
  have ec := ctrl26_congr hc
  have ed := dev4_congr hd
  exact ⟨exec_eq_of_frame_eq (by simp only [frame, ec, ed]) rfl, exec_eq_of_frame_eq (by simp only [frame, ec, ed]) rfl,
    exec_eq_of_frame_eq (by simp only [frame, ec]) rfl, exec_eq_of_frame_eq (by simp only [frame, ec]) rfl,
    fun l => exec_eq_of_frame_eq (by simp only [frame, ec, ed]) rfl⟩

/-! ### The dim operand -/

theorem dim4_literal {p : Params} (h : p.dimScale = .literal) (l : Uint) : dim4 p l = 0 := by
  simp [dim4, h, dim4Literal]

theorem dim4_intent {p : Params} (h : p.dimScale = .intent) (l : Uint) :
    dim4 p l = BitVec.ofNat 4 (l.toNat * 15 / 100) := by
  simp [dim4, h, dim4Intent]

theorem dim4_intent_toNat {p : Params} (h : p.dimScale = .intent) (l : Uint) :
    (dim4 p l).toNat = l.toNat * 15 / 100 % 16 := by
  rw [dim4_intent h, BitVec.toNat_ofNat]

/-- Settles O24: a `DeviceDim` reads its level through the dim operand only. -/
theorem literalDimIsZero : Obligations.LiteralDimIsZero := by
  rintro p hp
  refine ⟨dim4_literal hp, fun c d l l' s hs => exec_eq_of_frame_eq ?_ rfl⟩
  rw [← hs] at hp
  simp only [frame, dim4_literal hp]

/-- Settles O25: up to level 106 the quotient is below 16, so the truncation keeps it. -/
theorem intentDimFormula : Obligations.IntentDimFormula := by
  intro p hp
  refine ⟨dim4_intent_toNat hp, fun l l' hle hmax => ?_, dim4_intent hp 100, dim4_intent hp 107⟩
  have hquot : l.toNat * 15 / 100 ≤ l'.toNat * 15 / 100 := Nat.div_le_div_right (Nat.mul_le_mul_right 15 hle)
  have hfits : l'.toNat * 15 / 100 < 16 := by omega
  rwa [dim4_intent_toNat hp, dim4_intent_toNat hp, Nat.mod_eq_of_lt hfits, Nat.mod_eq_of_lt (hquot.trans_lt hfits)]

end Sys2Proof.Machine
end

section
/-! Field-to-bits conversion (30_encoding.md R56), the line code (R58) and the expansion of a frame (R59). -/

namespace Sys2Proof.Machine

/-! ### Fields to bits -/

@[simp] theorem length_bits (n v : Nat) : (bits n v).length = n := by simp [bits]

theorem getElem?_bits {n i : Nat} (h : i < n) (v : Nat) :
    (bits n v)[i]? = some (FrameSym.ofBit ((trunc n v).testBit (n - 1 - i))) := by
  simp [bits, h]

theorem testBit_trunc {n i : Nat} (h : i < n) (v : Nat) : (trunc n v).testBit i = v.testBit i := by
  simp [trunc, Nat.testBit_mod_two_pow, h]

theorem trunc_succ (n v : Nat) : trunc (n + 1) v = trunc n v + 2 ^ n * (v.testBit n).toNat := by
  rw [Nat.toNat_testBit]
  exact Nat.mod_pow_succ

theorem trunc_lt (n v : Nat) : trunc n v < 2 ^ n := Nat.mod_lt v (Nat.two_pow_pos n)

/-- The first symbol is the bit of the highest weight, and the rest is the field one bit narrower. -/
theorem bits_succ (n v : Nat) : bits (n + 1) v = FrameSym.ofBit (v.testBit n) :: bits n v := by
  apply List.ext_getElem?
  rintro (_ | i)
  · rw [getElem?_bits (by omega), testBit_trunc (by omega)]
    rfl
  · rw [List.getElem?_cons_succ]
    by_cases h : i < n
    · rw [getElem?_bits (by omega), getElem?_bits h, testBit_trunc (by omega), testBit_trunc (by omega),
        show n + 1 - 1 - (i + 1) = n - 1 - i by omega]
    · rw [List.getElem?_eq_none (by simp; omega), List.getElem?_eq_none (by simp; omega)]

/-- One round of the procedure of R56 emits the bit of its weight and leaves the field one bit narrower. -/
theorem bitsByProcedure_succ (n v : Nat) :
    bitsByProcedure (n + 1) v = FrameSym.ofBit (v.testBit n) :: bitsByProcedure n v := by
  rw [bitsByProcedure, trunc_succ, subtractOnMatch]
  cases v.testBit n with
  | true =>
    rw [Bool.toNat_true, Nat.mul_one, if_pos (Nat.le_add_left _ _), Nat.add_sub_cancel_right]
    rfl
  | false =>
    rw [Bool.toNat_false, Nat.mul_zero, Nat.add_zero, if_neg (Nat.not_le.mpr (trunc_lt n v))]
    rfl

theorem bits_eq_bitsByProcedure (n v : Nat) : bits n v = bitsByProcedure n v := by
  induction n with
  | zero => rfl
  | succ n ih => rw [bits_succ, bitsByProcedure_succ, ih]

/-- Settles O26, by induction on the width: both sequences begin with the bit of the highest weight. -/
theorem bitsMostSignificantFirst : Obligations.BitsMostSignificantFirst := fun n v =>
  ⟨length_bits n v, fun _ hi => getElem?_bits hi v, bits_eq_bitsByProcedure n v⟩

/-! ### The line code and the expansion -/

/-- Settles O28: the table of R58 as it stands. -/
theorem lineCode : Obligations.LineCode := ⟨rfl, rfl, rfl, rfl, rfl⟩

@[simp] theorem expand_nil : expand [] = [] := rfl

@[simp] theorem expand_cons (y : FrameSym) (F : Frame) : expand (y :: F) = (code y).1 :: (code y).2 :: expand F := rfl

@[simp] theorem length_expand (F : Frame) : (expand F).length = 2 * F.length := by
  induction F with
  | nil => rfl
  | cons y F ih => simp only [expand_cons, List.length_cons, ih]; omega

theorem getElem?_expand {F : Frame} {k : Nat} {y : FrameSym} (h : F[k]? = some y) :
    (expand F)[2 * k]? = some (code y).1 ∧ (expand F)[2 * k + 1]? = some (code y).2 := by
  induction F generalizing k with
  | nil => cases h
  | cons z F ih =>
    cases k with
    | zero => cases h; exact ⟨rfl, rfl⟩
    | succ k => exact ih h

/-- Settles O29, by induction on the frame. -/
theorem expansionPairs : Obligations.ExpansionPairs := fun F => ⟨length_expand F, fun _ _ h => getElem?_expand h⟩

end Sys2Proof.Machine
end

section
/-! The frame encoder (40_frame_encoder.md R63 to R71): where a frame's fields stand, what an acceptance stores, and what a
reserved command does. -/

namespace Sys2Proof.Machine

/-! ### The layout of a frame (R57) -/

theorem getElem?_bits_toNat {n k : Nat} (h : k < n) (v : BitVec n) :
    (bits n v.toNat)[k]? = some (FrameSym.ofBit (v.getLsbD (n - 1 - k))) := by
  rw [getElem?_bits h, testBit_trunc (by omega), BitVec.testBit_toNat]

/-- `frameOf` cut at the offsets 26, 28 and 32. -/
theorem frameOf_eq (c : CtrlField) (group on : FrameSym) (d : Nibble) (appended : Frame) :
    frameOf c group on d appended = bits 26 c.toNat ++ (group :: on :: (bits 4 d.toNat ++ appended)) := by
  simp [frameOf]

@[simp] theorem length_frameOf (c : CtrlField) (group on : FrameSym) (d : Nibble) (appended : Frame) :
    (frameOf c group on d appended).length = 32 + appended.length := by
  simp only [frameOf_eq, List.length_append, List.length_cons, length_bits]
  omega

theorem getElem?_frameOf_ctrl {k : Nat} (h : k < 26) (c : CtrlField) (group on : FrameSym) (d : Nibble)
    (appended : Frame) :
    (frameOf c group on d appended)[k]? = some (FrameSym.ofBit (c.getLsbD (25 - k))) := by
  rw [frameOf_eq, List.getElem?_append_left (by rwa [length_bits]), getElem?_bits_toNat h]

/-- From offset 26 on stand the two flags, device_id and what a dim command appends. -/
theorem getElem?_frameOf_tail (c : CtrlField) (group on : FrameSym) (d : Nibble) (appended : Frame) (k : Nat) :
    (frameOf c group on d appended)[26 + k]? = (group :: on :: (bits 4 d.toNat ++ appended))[k]? := by
  rw [frameOf_eq, List.getElem?_append_right (by simp), length_bits, Nat.add_sub_cancel_left]

theorem getElem?_frameOf_group (c : CtrlField) (group on : FrameSym) (d : Nibble) (appended : Frame) :
    (frameOf c group on d appended)[26]? = some group :=
  getElem?_frameOf_tail c group on d appended 0

theorem getElem?_frameOf_on (c : CtrlField) (group on : FrameSym) (d : Nibble) (appended : Frame) :
    (frameOf c group on d appended)[27]? = some on :=
  getElem?_frameOf_tail c group on d appended 1

/-- From offset 28 on. -/
theorem getElem?_frameOf_fields (c : CtrlField) (group on : FrameSym) (d : Nibble) (appended : Frame) (k : Nat) :
    (frameOf c group on d appended)[28 + k]? = (bits 4 d.toNat ++ appended)[k]? := by
  rw [show 28 + k = 26 + (k + 2) by omega, getElem?_frameOf_tail, List.getElem?_cons_succ, List.getElem?_cons_succ]

theorem getElem?_frameOf_dev {k : Nat} (h : k < 4) (c : CtrlField) (group on : FrameSym) (d : Nibble)
    (appended : Frame) :
    (frameOf c group on d appended)[28 + k]? = some (FrameSym.ofBit (d.getLsbD (3 - k))) := by
  rw [getElem?_frameOf_fields, List.getElem?_append_left (by rwa [length_bits]), getElem?_bits_toNat h]

theorem getElem?_frameOf_appended (c : CtrlField) (group on : FrameSym) (d : Nibble) (appended : Frame) (k : Nat) :
    (frameOf c group on d appended)[32 + k]? = appended[k]? := by
  rw [show 32 + k = 28 + (4 + k) by omega, getElem?_frameOf_fields, List.getElem?_append_right (by simp), length_bits,
    Nat.add_sub_cancel_left]

/-! ### The truncated operands' bits (R52) -/

theorem getLsbD_ctrl26 {j : Nat} (h : j < 26) (ctrl : Uint) : (ctrl26 ctrl).getLsbD j = ctrl.getLsbD j := by
  simp [ctrl26, h]

theorem getLsbD_dev4 {j : Nat} (h : j < 4) (dev : Uint) : (dev4 dev).getLsbD j = dev.getLsbD j := by
  simp [dev4, h]

@[simp] theorem ofBit_false : FrameSym.ofBit false = .zero := rfl

/-! ### What an acceptance writes (R64) -/

theorem acceptedFrom_accept (isDim : Bool) (F : Frame) (s : State) : AcceptedFrom s (s.accept isDim F) isDim :=
  ⟨by rw [accept_blk]; rfl, ⟨rfl, rfl, rfl⟩⟩

theorem read_accept (isDim : Bool) (F : Frame) (s : State) (j : Nat) :
    PulseBuffer.read (s.accept isDim F).blk.buf j =
      if j < 72 then (if j < 2 * F.length then (expand F)[j]? else PulseBuffer.read s.blk.buf j) else none := by
  rw [accept_blk, blockAccept_buf, read_write, length_expand]

/-- A frame's symbols fill the pairs from the first on, as far as the buffer has entries. -/
theorem pairAt_accept {F : Frame} {k : Nat} {y : FrameSym} (hk : k < 36) (hy : F[k]? = some y) (isDim : Bool)
    (s : State) : PairAt (s.accept isDim F).blk.buf k y := by
  obtain ⟨hlen, -⟩ := List.getElem?_eq_some_iff.mp hy
  obtain ⟨hfst, hsnd⟩ := getElem?_expand hy
  constructor
  · rw [read_accept, if_pos (by omega), if_pos (by omega), hfst]
  · rw [read_accept, if_pos (by omega), if_pos (by omega), hsnd]

/-- The entries beyond the frame's pairs keep their values (R26). -/
theorem read_accept_of_le {F : Frame} {j : Nat} (hj : 2 * F.length ≤ j) (isDim : Bool) (s : State) :
    PulseBuffer.read (s.accept isDim F).blk.buf j = PulseBuffer.read s.blk.buf j := by
  rw [read_accept, if_neg (Nat.not_lt.mpr hj)]
  split
  · rfl
  · exact ((read_eq_none_iff _ _).mpr (by omega)).symm

/-- `t`'s buffer holds a frame's fields in the layout of R57, with `s`'s entries beyond them. -/
structure FieldsStored (s t : State) (ctrl : Uint) (group on : FrameSym) (dev : Uint) (appended : Frame) : Prop where
  ctrlPairs : ∀ k, k < 26 → PairAt t.blk.buf k (FrameSym.ofBit (ctrl.getLsbD (25 - k)))
  groupPair : PairAt t.blk.buf 26 group
  onPair : PairAt t.blk.buf 27 on
  devPairs : ∀ k, k < 4 → PairAt t.blk.buf (28 + k) (FrameSym.ofBit (dev.getLsbD (3 - k)))
  appendedPairs : ∀ k y, k < 4 → appended[k]? = some y → PairAt t.blk.buf (32 + k) y
  rest : ∀ j, 2 * (32 + appended.length) ≤ j → PulseBuffer.read t.blk.buf j = PulseBuffer.read s.blk.buf j

theorem fieldsStored_accept (isDim : Bool) (ctrl : Uint) (group on : FrameSym) (dev : Uint) (appended : Frame)
    (s : State) :
    FieldsStored s (s.accept isDim (frameOf (ctrl26 ctrl) group on (dev4 dev) appended)) ctrl group on dev appended where
  ctrlPairs k hk := pairAt_accept (by omega)
    (by rw [getElem?_frameOf_ctrl hk, getLsbD_ctrl26 (by omega)]) isDim s
  groupPair := pairAt_accept (by omega) (getElem?_frameOf_group ..) isDim s
  onPair := pairAt_accept (by omega) (getElem?_frameOf_on ..) isDim s
  devPairs k hk := pairAt_accept (by omega)
    (by rw [getElem?_frameOf_dev hk, getLsbD_dev4 (by omega)]) isDim s
  appendedPairs k _ hk hy := pairAt_accept (by omega) ((getElem?_frameOf_appended _ _ _ _ _ k).trans hy) isDim s
  rest _ hj := read_accept_of_le (by rwa [length_frameOf]) isDim s

/-- In `IDLE` without reset, a command with a frame is accepted, and the frame's fields are stored. -/
theorem exec_stores_fields {i : Instr} {s : State} {ctrl dev : Uint} {group on : FrameSym} {appended : Frame}
    (hr : s.pins.rst = false) (hi : s.blk.st = .idle)
    (hf : frame s.params i = some (frameOf (ctrl26 ctrl) group on (dev4 dev) appended)) :
    ∃ t, exec i s = .next t ∧ AcceptedFrom s t (sendsDim i) ∧ FieldsStored s t ctrl group on dev appended :=
  ⟨_, by rw [exec_eq_edge, edge_of_idle hr hi, onAcceptance, hf], acceptedFrom_accept _ _ s,
    fieldsStored_accept _ ctrl group on dev appended s⟩

/-! ### The device commands (R65, R66) -/

/-- Settles O13, from the layout of the frame an acceptance stores. -/
theorem deviceOnAccepted : Obligations.DeviceOnAccepted := fun ctrl dev s hr hi => by
  obtain ⟨t, he, ha, hf⟩ := exec_stores_fields (i := .deviceOn ctrl dev) hr hi rfl
  exact ⟨fun level => by simp [decode], t, he, ha, hf.ctrlPairs, hf.groupPair, hf.onPair, hf.devPairs, hf.rest⟩

/-- Settles O14, from the layout of the frame an acceptance stores. -/
theorem deviceOffAccepted : Obligations.DeviceOffAccepted := fun ctrl dev s hr hi => by
  obtain ⟨t, he, ha, hf⟩ := exec_stores_fields (i := .deviceOff ctrl dev) hr hi rfl
  exact ⟨fun level => by simp [decode], t, he, ha, hf.ctrlPairs, hf.groupPair, hf.onPair, hf.devPairs, hf.rest⟩

/-! ### The group commands (R67, R68) -/

/-- The pairs of device_id 0. -/
theorem FieldsStored.devPairs_zero {s t : State} {ctrl : Uint} {group on : FrameSym} {appended : Frame}
    (h : FieldsStored s t ctrl group on 0 appended) (k : Nat) (hk : k < 4) : PairAt t.blk.buf (28 + k) .zero := by
  simpa using h.devPairs k hk

/-- Settles O15: a group command stores the frame of device 0, since no `cmd_dev` is part of the command. -/
theorem groupOnAccepted : Obligations.GroupOnAccepted := fun ctrl s hr hi => by
  obtain ⟨t, he, ha, hf⟩ := exec_stores_fields (i := .groupOn ctrl) (dev := 0) hr hi rfl
  exact ⟨fun dev level => by simp [decode], t, he, ha, hf.ctrlPairs, hf.groupPair, hf.onPair, hf.devPairs_zero, hf.rest⟩

/-- Settles O16, as for `GroupOn`. -/
theorem groupOffAccepted : Obligations.GroupOffAccepted := fun ctrl s hr hi => by
  obtain ⟨t, he, ha, hf⟩ := exec_stores_fields (i := .groupOff ctrl) (dev := 0) hr hi rfl
  exact ⟨fun dev level => by simp [decode], t, he, ha, hf.ctrlPairs, hf.groupPair, hf.onPair, hf.devPairs_zero, hf.rest⟩

/-! ### The dim command (R69, R70) -/

/-- The dim field's symbols under `LITERAL` (R53). -/
theorem getElem?_bits_dim4_literal {p : Params} (h : p.dimScale = .literal) (level : Uint) {k : Nat} (hk : k < 4) :
    (bits 4 (dim4 p level).toNat)[k]? = some .zero := by
  rw [getElem?_bits_toNat hk, dim4_literal h]
  simp

/-- The dim field's symbols under `INTENT`: the truncation keeps the low 4 bits of the quotient (R54). -/
theorem getElem?_bits_dim4_intent {p : Params} (h : p.dimScale = .intent) (level : Uint) {k : Nat} (hk : k < 4) :
    (bits 4 (dim4 p level).toNat)[k]? = some (FrameSym.ofBit ((level.toNat * 15 / 100).testBit (3 - k))) := by
  rw [getElem?_bits_toNat hk, dim4_intent h, BitVec.getLsbD_ofNat]
  simp [show 3 - k < 4 by omega]

/-- Settles O17: the appended field is the dim operand of the build, symbol by symbol for each scale. -/
theorem deviceDimAccepted : Obligations.DeviceDimAccepted := fun ctrl dev level s hr hi => by
  obtain ⟨t, he, ha, hf⟩ := exec_stores_fields (i := .deviceDim ctrl dev level) hr hi rfl
  obtain ⟨h54, h55⟩ := hf.onPair
  exact ⟨by simp [decode], t, he, ha, hf.ctrlPairs, hf.groupPair, h54, h55, hf.devPairs,
    fun hs k hk => hf.appendedPairs k _ hk (getElem?_bits_dim4_literal hs level hk),
    fun hs k hk => hf.appendedPairs k _ hk (getElem?_bits_dim4_intent hs level hk)⟩

/-! ### The reserved commands (R71) -/

theorem frame_of_reserved {i : Instr} (h : i = .rsv0 ∨ i = .rsv6 ∨ i = .rsv7) (p : Params) : frame p i = none := by
  rcases h with rfl | rfl | rfl <;> rfl

/-- In `IDLE` without reset, a command without a frame raises `CmdErr`. -/
theorem exec_raises_of_frame_none {i : Instr} {s : State} (hr : s.pins.rst = false) (hi : s.blk.st = .idle)
    (hf : frame s.params i = none) : exec i s = .next s.raiseCmdErr := by
  rw [exec_eq_edge, edge_of_idle hr hi, onAcceptance, hf]

/-- While a transmission is in progress, what `IDLE` would do plays no part in the edge. -/
theorem edge_eq_of_busy {s : State} (hb : s.blk.st ≠ .idle) (f g : State → State) : s.edge f = s.edge g := by
  cases hr : s.pins.rst with
  | true => rw [edge_of_rst hr, edge_of_rst hr]
  | false => rw [edge_of_busy hr hb, edge_of_busy hr hb]

theorem exec_eq_edgeWithoutCommand_of_busy {s : State} (hb : s.blk.st ≠ .idle) (i : Instr) :
    exec i s = edgeWithoutCommand s :=
  (exec_eq_edge i s).trans (edge_eq_of_busy hb _ _)

theorem accepts_of_busy {s : State} (hb : s.blk.st ≠ .idle) : s.accepts = false := by
  rw [← Bool.not_eq_true, accepts_iff]
  exact fun ⟨_, hi, _⟩ => hb hi

/-- The cycle after `CmdErr` was raised: the event is signalled, and the port of the idle block stays ready. -/
theorem raiseCmdErr_outputs {s : State} (hr : s.pins.rst = false) (hi : s.blk.st = .idle) :
    s.raiseCmdErr.event = some .cmdErr ∧ s.raiseCmdErr.txOut = false ∧ s.raiseCmdErr.busy = false ∧
      s.raiseCmdErr.cmdReady = true := by
  have hst : s.raiseCmdErr.blk.st = .idle := by rw [raiseCmdErr_blk, pulseErr_st, hi]
  have hready : s.raiseCmdErr.cmdReady = true := (cmdReady_iff _).mpr ⟨hst, hr⟩
  exact ⟨by simp [State.event, State.cmdErr], by rw [State.txOut, hst]; rfl, by simp [State.busy, hi], hready⟩

/-- Settles O18: a reserved command has no frame, so its acceptance raises `CmdErr`, and a busy block holds it off. -/
theorem reservedCommandDropped : Obligations.ReservedCommandDropped := by
  refine ⟨fun ctrl dev level => ?_, fun i s hres hr hi => ?_, fun i s _ hb => ?_⟩
  · obtain ⟨h0, -, -, -, -, -, h6, h7⟩ := commandCodes ctrl dev level
    exact ⟨h0, h6, h7⟩
  · exact ⟨s.raiseCmdErr, exec_raises_of_frame_none hr hi (frame_of_reserved hres _), raiseCmdErr_blk s, ⟨rfl, rfl, rfl⟩,
      raiseCmdErr_outputs hr hi⟩
  · exact ⟨accepts_of_busy hb, exec_eq_edgeWithoutCommand_of_busy hb i⟩

end Sys2Proof.Machine
end

section
/-! The transmitter (41_transmitter.md): the moves of the sequencer (R81), how long a segment lasts (R79), and the edges that
end a transmission (R83, R91). -/

namespace Sys2Proof.Machine

/-! ### The edge of a transmission (R90) -/

/-- Without a reset, the step of a busy block is its timing-controller step, whatever is presented. -/
theorem step_of_busy {s : State} (hr : s.pins.rst = false) (hb : s.blk.st ≠ .idle) :
    ∃ t, step s = .next t ∧ t.params = s.params ∧ t.blk = s.tick.blk := by
  rw [step_eq, edge_of_busy hr hb]
  exact ⟨_, rfl, rfl, rfl⟩

theorem tick_of_cnt_ne_zero {s : State} (hc : s.blk.cnt ≠ 0) :
    s.tick.blk = { s.blk.clearPulses with cnt := s.blk.cnt - 1 } := by
  rcases tick_cases s with ⟨-, e⟩ | ⟨h0, -⟩
  · exact e
  · exact absurd h0 hc

/-- Settles O35: the rows of the table are the cases of `tick_cases` in which a segment ends. -/
theorem transitionTable : Obligations.TransitionTable := by
  intro s hr hc hb
  obtain ⟨t, ht, hp, hblk⟩ := step_of_busy hr hb
  refine ⟨t, ht, hp, ?_⟩
  rw [hblk]
  rcases tick_cases s with
    ⟨hc', -⟩ | ⟨-, ⟨hi, -⟩ | ⟨h, e⟩ | ⟨h, e⟩ | ⟨h, e⟩ | ⟨h, e⟩ | ⟨h, d, hd, e⟩ | ⟨h, habs, -⟩ | ⟨h, hl, e⟩ | ⟨h, hl, e⟩ |
      ⟨h, e⟩ | ⟨h, e⟩ | ⟨h, hrep, e⟩ | ⟨h, hrep, e⟩⟩
  · exact absurd hc hc'
  · exact absurd hi hb
  · simp [h, e, l1Low]
  · simp [h, e, l2High]
  · simp [h, e, l2Low]
  · simp [h, e, tHigh]
  · simp [h, e, hd]
  · simp [h, (read_eq_none_iff s.blk.buf _).mpr habs]
  · simp [h, e, tHigh, hl.ne]
  · simp [h, e, hl, l2High]
  · simp [h, e, l2Low]
  · simp [h, e, tGap]
  · simp [h, e, hrep, l1High]
  · simp [h, e, hrep, Block.pulseDone]

/-! ### Leaving the critical section (R83) and the completion pulse (R91) -/

theorem tick_st_idle_iff {s : State} (hb : s.blk.st ≠ .idle) :
    s.tick.blk.st = .idle ↔ s.blk.st = .gap ∧ s.blk.cnt = 0 ∧ s.blk.rep = 1 := by
  constructor
  · intro hi
    rcases tick_busy_or_ends hb with ⟨hst, -, -⟩ | ⟨hg, hc, hr, -⟩
    · exact absurd hi hst
    · exact ⟨hg, hc, hr⟩
  · rintro ⟨hg, hc, hr⟩
    have e : s.tick.blk = { s.blk.pulseDone with st := .idle } := by simpa [hg, hc, hr] using tick_cases s
    rw [e]

/-- A busy block becomes idle by a reset or at the end of the second repeat's gap. -/
theorem step_st_idle_iff {s t : State} (h : step s = .next t) (hb : s.blk.st ≠ .idle) :
    t.blk.st = .idle ↔ s.pins.rst = true ∨ (s.blk.st = .gap ∧ s.blk.cnt = 0 ∧ s.blk.rep = 1) := by
  obtain ⟨-, -, ⟨hr, e, -⟩ | ⟨-, hi, -, -⟩ | ⟨hr, -, e, -⟩⟩ := step_next_cases h
  · simp [e, hr]
  · exact absurd hi hb
  · simp [e, hr, tick_st_idle_iff hb]

theorem irqMask_eq_false_iff (s : State) : s.irqMask = false ↔ s.blk.st = .idle := by simp [State.irqMask]

theorem busy_eq_false_iff (s : State) : s.busy = false ↔ s.blk.st = .idle := by simp [State.busy]

/-- Settles O38: `irq_mask` is 0 exactly in `IDLE`. -/
theorem criticalSectionExit : Obligations.CriticalSectionExit := fun s t h hm => by
  rw [irqMask_eq_false_iff, step_st_idle_iff h ((irqMask_iff s).mp hm)]

theorem step_done_iff {s t : State} (h : step s = .next t) :
    t.done = true ↔ s.pins.rst = false ∧ s.blk.st = .gap ∧ s.blk.cnt = 0 ∧ s.blk.rep = 1 := by
  rw [State.done, step_doneR_iff h]
  constructor
  · rintro ⟨hr, hb, hi⟩
    rcases (step_st_idle_iff h hb).mp hi with hr' | hend
    · rw [hr] at hr'; cases hr'
    · exact ⟨hr, hend⟩
  · rintro ⟨hr, hg, hend⟩
    have hb : s.blk.st ≠ .idle := by simp [hg]
    exact ⟨hr, hb, (step_st_idle_iff h hb).mpr (.inr ⟨hg, hend⟩)⟩

/-- Settles O39: a `done` cycle is an `IDLE` cycle, and the edge of an `IDLE` cycle never sets `done_r`. -/
theorem donePulse : Obligations.DonePulse := by
  intro s t h
  have idle_of_done : t.done = true → t.blk.st = .idle := fun hd => ((step_doneR_iff h).mp hd).2.2
  refine ⟨step_done_iff h, fun hd => ?_, fun hd u hu => ?_⟩
  · have hi := idle_of_done hd
    exact ⟨(busy_eq_false_iff t).mpr hi, (irqMask_eq_false_iff t).mpr hi, fun hr => (cmdReady_iff t).mpr ⟨hi, hr⟩⟩
  · rw [← Bool.not_eq_true]
    intro hdu
    obtain ⟨-, hb, -⟩ := (step_doneR_iff hu).mp hdu
    exact hb (idle_of_done hd)

/-! ### Entering a segment (R79) -/

/-- `cnt` is loaded for the segment the block is in, where there is one. -/
def Block.Loaded (p : Params) (b : Block) : Prop := ∀ d, b.segmentUs = some d → b.cnt = seg p d - 1

theorem loaded_of_segmentUs_none {p : Params} {b : Block} (h : b.segmentUs = none) : b.Loaded p := by
  intro d hd
  rw [h] at hd
  cases hd

theorem loaded_of_segmentUs {p : Params} {b : Block} {us : Nat} (hs : b.segmentUs = some us)
    (hc : b.cnt = seg p us - 1) : b.Loaded p := by
  intro d hd
  obtain rfl : us = d := Option.some.inj (hs.symm.trans hd)
  exact hc

theorem us_pos (d : LowPulse) : 1 ≤ d.us := by cases d <;> decide

theorem segmentUs_pos {b : Block} {d : Nat} (h : b.segmentUs = some d) : 1 ≤ d := by
  unfold Block.segmentUs at h
  cases hst : b.st <;> rw [hst] at h
  case idle => cases h
  case dl =>
    obtain ⟨l, -, rfl⟩ := Option.map_eq_some_iff.mp h
    exact us_pos l
  all_goals
    cases h
    decide

/-- The edge that ends a segment loads the next one. The moves to `DL` and to `IDLE` stand apart: an entry read from the
buffer gives the load, and without an entry, as in `IDLE`, there is no segment. -/
theorem tick_loaded {s : State} (hb : s.blk.st ≠ .idle) (hc : s.blk.cnt = 0) : s.tick.blk.Loaded s.params := by
  rcases tick_cases s with
    ⟨hc', -⟩ | ⟨-, ⟨hi, -⟩ | ⟨-, e⟩ | ⟨-, e⟩ | ⟨-, e⟩ | ⟨-, e⟩ | ⟨-, d, hd, e⟩ | ⟨-, habs, e⟩ | ⟨-, -, e⟩ | ⟨-, -, e⟩ |
      ⟨-, e⟩ | ⟨-, e⟩ | ⟨-, -, e⟩ | ⟨-, -, e⟩⟩
  on_goal 14 => exact e ▸ loaded_of_segmentUs_none rfl
  on_goal 8 => exact e ▸ loaded_of_segmentUs_none (congrArg (Option.map LowPulse.us) ((read_eq_none_iff _ _).mpr habs))
  on_goal 7 => exact e ▸ loaded_of_segmentUs (congrArg (Option.map LowPulse.us) hd) rfl
  · exact absurd hc hc'
  · exact absurd hi hb
  all_goals exact e ▸ loaded_of_segmentUs rfl rfl

theorem tick_st_of_cnt_ne_zero {s : State} (hc : s.blk.cnt ≠ 0) : s.tick.blk.st = s.blk.st := by
  rw [tick_of_cnt_ne_zero hc, clearPulses_st]

theorem onIdle_loaded {s : State} (hst : (onIdle s).blk.st ≠ s.blk.st) : (onIdle s).blk.Loaded s.params := by
  rcases onIdle_blk_cases s with ⟨-, e⟩ | ⟨_, -, -, e⟩ | ⟨_, _, -, -, -, e⟩
  · simp [e] at hst
  · simp [e] at hst
  · exact e ▸ loaded_of_segmentUs rfl rfl

/-- Every edge that changes the sequencer's state loads the segment it enters. -/
theorem step_loaded {s t : State} (h : step s = .next t) (hst : t.blk.st ≠ s.blk.st) : t.blk.Loaded t.params := by
  obtain ⟨hp, -, ⟨-, e, -⟩ | ⟨-, -, e, -⟩ | ⟨-, hb, e, -⟩⟩ := step_next_cases h <;> rw [e] at hst ⊢ <;> rw [hp]
  · exact loaded_of_segmentUs_none rfl
  · exact onIdle_loaded hst
  · exact tick_loaded hb (by_contra fun hc => hst (tick_st_of_cnt_ne_zero hc))

/-! ### Staying in a segment and leaving it (R79) -/

theorem tick_st_ne_of_cnt_eq_zero {s : State} (hb : s.blk.st ≠ .idle) (hc : s.blk.cnt = 0) :
    s.tick.blk.st ≠ s.blk.st := by
  rcases tick_cases s with
    ⟨hc', -⟩ | ⟨-, ⟨hi, -⟩ | ⟨h, e⟩ | ⟨h, e⟩ | ⟨h, e⟩ | ⟨h, e⟩ | ⟨h, _, -, e⟩ | ⟨h, -, e⟩ | ⟨h, -, e⟩ | ⟨h, -, e⟩ |
      ⟨h, e⟩ | ⟨h, e⟩ | ⟨h, -, e⟩ | ⟨h, -, e⟩⟩
  · exact absurd hc hc'
  · exact absurd hi hb
  all_goals simp [e, h]

/-- `t` is `s` after `k` more cycles of the same segment. -/
structure HeldFor (k : Nat) (s t : State) : Prop where
  st : t.blk.st = s.blk.st
  idx : t.blk.idx = s.blk.idx
  rep : t.blk.rep = s.blk.rep
  buf : t.blk.buf = s.blk.buf
  cnt : t.blk.cnt = s.blk.cnt - k

/-- While the counter runs a busy block stays in its segment. -/
theorem runFor_heldFor {s : State} (hb : s.blk.st ≠ .idle) (hn : NoResetFor s.blk.cnt s) {k : Nat}
    (hk : k ≤ s.blk.cnt) : ∃ t, runFor k s = some t ∧ HeldFor k s t := by
  induction k with
  | zero => exact ⟨s, rfl, rfl, rfl, rfl, rfl, rfl⟩
  | succ k ih =>
    obtain ⟨t, ht, held⟩ := ih (Nat.le_of_succ_le hk)
    have hc : t.blk.cnt ≠ 0 := by rw [held.cnt]; omega
    obtain ⟨u, hu, -, e⟩ := step_of_busy (hn k t hk ht) (held.st ▸ hb)
    rw [tick_of_cnt_ne_zero hc] at e
    refine ⟨u, ?_, ?_⟩
    · rw [runFor_add, ht]
      exact runFor_succ_of_step hu 0
    · constructor <;> rw [e]
      exacts [held.st, held.idx, held.rep, held.buf, by rw [held.cnt, Nat.sub_sub]]

/-- The edge after the counter has reached 0 leaves the segment. -/
theorem runFor_leaves_segment {s u : State} (hb : s.blk.st ≠ .idle) (hn : NoResetFor (s.blk.cnt + 1) s)
    (hu : runFor (s.blk.cnt + 1) s = some u) : u.blk.st ≠ s.blk.st := by
  obtain ⟨t, ht, held⟩ := runFor_heldFor hb (fun j v hj => hn j v (Nat.lt_succ_of_lt hj)) le_rfl
  have hbt : t.blk.st ≠ .idle := held.st ▸ hb
  obtain ⟨v, hv, -, e⟩ := step_of_busy (hn _ t (Nat.lt_succ_self _) ht) hbt
  rw [runFor_add, ht] at hu
  obtain rfl : v = u := Option.some.inj ((runFor_succ_of_step hv 0).symm.trans hu)
  rw [e, ← held.st]
  exact tick_st_ne_of_cnt_eq_zero hbt (held.cnt.trans (Nat.sub_self _))

theorem seg_pos {p : Params} {d : Nat} (hp : p.wellFormed = true) (hd : 1 ≤ d) : 1 ≤ seg p d :=
  Nat.mul_pos hd (of_decide_eq_true hp)

theorem busy_of_segmentUs {b : Block} {d : Nat} (h : b.segmentUs = some d) : b.st ≠ .idle := by
  intro hi
  simp [Block.segmentUs, hi] at h

/-- Settles O34: `cnt` starts at `seg(d) - 1`, loses 1 in each cycle, and at 0 the next edge moves on. -/
theorem segmentLastsExactly : Obligations.SegmentLastsExactly := by
  refine ⟨fun _ _ => rfl, fun s t d h hst hd => ⟨segmentUs_pos hd, step_loaded h hst d hd⟩, fun s d hp hd hc hn => ?_⟩
  have hb := busy_of_segmentUs hd
  have hpos := seg_pos hp (segmentUs_pos hd)
  have hseg : seg s.params d = s.blk.cnt + 1 := by omega
  rw [hseg] at hn ⊢
  refine ⟨fun k hk => ?_, fun u hu => runFor_leaves_segment hb hn hu⟩
  obtain ⟨t, ht, held⟩ := runFor_heldFor hb (fun j v hj => hn j v (Nat.lt_succ_of_lt hj)) (Nat.le_of_lt_succ hk)
  refine ⟨t, ht, held.st, held.idx, held.rep, held.buf, ?_⟩
  rw [held.cnt]
  omega

end Sys2Proof.Machine
end

section
/-! Exceptional conditions (60_exceptions.md): a command held off by a transmission (R102), valid commands without an
exception (R99), and the host's interrupt enable (R104). -/

namespace Sys2Proof.Machine

/-! ### The interrupt mask (R104) -/

theorem hostInterruptsDelivered_iff (s : State) (enable : Bool) :
    s.hostInterruptsDelivered enable = true ↔ enable = true ∧ s.irqMask = false := by
  rw [State.hostInterruptsDelivered, Bool.and_eq_true, Bool.not_eq_true']

/-- Settles O59, from the output `irq_mask` and the combining function of the host's controller. -/
theorem interruptMaskCombines : Obligations.InterruptMaskCombines := fun s enable =>
  ⟨irqMask_iff s, hostInterruptsDelivered_iff s enable⟩

/-! ### Valid commands (R99) -/

theorem exists_frame_of_startsTransmission {i : Instr} (hv : startsTransmission i = true) (p : Params) :
    ∃ F, frame p i = some F := by
  rw [← Option.ne_none_iff_exists', ne_eq, frame_eq_none_iff, hv]
  decide

/-- A valid command is accepted with its frame: the event `CmdErr` plays no part. -/
theorem onAcceptance_of_startsTransmission {i : Instr} (hv : startsTransmission i = true) (s : State) :
    ∃ F, onAcceptance i s = s.accept (sendsDim i) F := by
  obtain ⟨F, hF⟩ := exists_frame_of_startsTransmission hv s.params
  exact ⟨F, by rw [onAcceptance, hF]⟩

theorem accept_busy (isDim : Bool) (F : Frame) (s : State) : (s.accept isDim F).busy = true := by
  simp [busy_iff]

theorem accept_cmdErr (isDim : Bool) (F : Frame) (s : State) : (s.accept isDim F).cmdErr = false := by
  simp [State.cmdErr]

/-- No branch of the edge raises `CmdErr` for a valid command: neither reset, nor its acceptance, nor a transmission. -/
theorem exec_cmdErr_of_startsTransmission {i : Instr} {s t : State} (hv : startsTransmission i = true)
    (h : exec i s = .next t) : t.cmdErr = false := by
  rw [exec_eq_edge] at h
  rcases edge_next_cases h with ⟨-, rfl⟩ | ⟨-, -, rfl⟩ | ⟨-, hb, rfl⟩
  · rw [State.cmdErr, resetAction_blk, blockReset_errR]
  · obtain ⟨F, e⟩ := onAcceptance_of_startsTransmission hv s
    rw [e, accept_cmdErr]
  · exact tick_errR hb

/-- Settles O19: a valid command has a frame, so in `IDLE` its acceptance starts a transmission and raises nothing. -/
theorem validCommandNeverErrs : Obligations.ValidCommandNeverErrs := by
  refine fun i s hv => ⟨fun t h => exec_cmdErr_of_startsTransmission hv h, fun hr hi => ?_⟩
  obtain ⟨F, e⟩ := onAcceptance_of_startsTransmission hv s
  refine ⟨s.accept (sendsDim i) F, ?_, accept_busy _ F s, accept_cmdErr _ F s⟩
  rw [exec_eq_edge, edge_of_idle hr hi, e]

/-! ### A command presented during a transmission (R102) -/

@[simp] theorem movedTo_buf (b : Block) (p : Params) (st : SeqState) (d : Nat) (idx : BitVec 7) (rep : BitVec 1) :
    (b.movedTo p st d idx rep).buf = b.buf := rfl

/-- No row of the transition table writes the pulse buffer. -/
theorem tick_buf (s : State) : s.tick.blk.buf = s.blk.buf := by
  rcases tick_cases s with
    ⟨-, e⟩ | ⟨-, ⟨-, e⟩ | ⟨-, e⟩ | ⟨-, e⟩ | ⟨-, e⟩ | ⟨-, e⟩ | ⟨-, _, -, e⟩ | ⟨-, -, e⟩ | ⟨-, -, e⟩ | ⟨-, -, e⟩ |
      ⟨-, e⟩ | ⟨-, e⟩ | ⟨-, -, e⟩ | ⟨-, -, e⟩⟩
  all_goals simp [e]

theorem cmdReady_of_busy {s : State} (hb : s.blk.st ≠ .idle) : s.cmdReady = false := by
  rw [← Bool.not_eq_true, cmdReady_iff]
  exact fun ⟨hi, _⟩ => hb hi

/-- A command presented to a busy block is not signalled and writes nothing, also where a reset ends the transmission. -/
theorem exec_errR_buf_of_busy {i : Instr} {s t : State} (hb : s.blk.st ≠ .idle) (h : exec i s = .next t) :
    t.blk.errR = false ∧ t.blk.buf = s.blk.buf := by
  rw [exec_eq_edge] at h
  rcases edge_next_cases h with ⟨-, rfl⟩ | ⟨-, hi, -⟩ | ⟨-, -, rfl⟩
  · simp
  · exact absurd hi hb
  · exact ⟨tick_errR hb, tick_buf s⟩

section CommandLine

variable {s : State} {op : Op} {ctrl dev level : Uint} {rest : List HostMove}

theorem pins_of_command (h : s.script = .command op ctrl dev level :: rest) :
    s.pins = (HostMove.command op ctrl dev level).pins :=
  pins_of_live (by rw [h, liveMoves_command])

theorem presented_of_command (h : s.script = .command op ctrl dev level :: rest) :
    s.presented = some (decode (cmdWord op ctrl dev level)) := by
  rw [presented_some_iff, pins_of_command h]
  exact ⟨rfl, rfl⟩

/-- A command line drives `rst` = 0, so an idle block accepts it. -/
theorem accepts_of_command_of_idle (h : s.script = .command op ctrl dev level :: rest) (hi : s.blk.st = .idle) :
    s.accepts = true := by
  rw [accepts_of_command h, cmdReady_iff, pins_of_command h]
  exact ⟨hi, rfl⟩

/-- A busy block leaves a command line at the head of the script. -/
theorem step_script_of_command_of_busy {t : State} (h : s.script = .command op ctrl dev level :: rest)
    (hb : s.blk.st ≠ .idle) (ht : step s = .next t) : t.script = s.script := by
  obtain ⟨-, hscript, -⟩ := step_next_cases ht
  rw [hscript, h, scriptAfter_command, accepts_of_busy hb]
  rfl

end CommandLine

/-- Settles O10: a busy block does with any command what it does without one, and a command line waits for `IDLE`. -/
theorem busyBlockHoldsCommandOff : Obligations.BusyBlockHoldsCommandOff := by
  refine ⟨fun i s hb => ⟨cmdReady_of_busy hb, accepts_of_busy hb, exec_eq_edgeWithoutCommand_of_busy hb i,
    fun t h => exec_errR_buf_of_busy hb h⟩, fun op ctrl dev level rest s h => ⟨fun hb t ht => ?_, fun hi => ?_⟩⟩
  · exact step_script_of_command_of_busy h hb ht
  · exact ⟨accepts_of_command_of_idle h hi, presented_of_command h⟩

end Sys2Proof.Machine
end

section
/-! Reset and parameters (70_reset_and_hazards.md): a reset edge performs the reset action and nothing else (R115, R116), it
aborts a transmission (R117), and no run changes a parameter (R125). -/

namespace Sys2Proof.Machine

/-! ### The reset edge (R115, R116) -/

theorem accepts_of_rst {s : State} (hr : s.pins.rst = true) : s.accepts = false := by
  rw [← Bool.not_eq_true, accepts_iff, hr]
  exact fun ⟨_, _, h⟩ => Bool.noConfusion h

/-- Reset has priority over any command. -/
theorem exec_of_rst {s : State} (hr : s.pins.rst = true) (i : Instr) : exec i s = .next s.resetAction := by
  rw [exec_eq_edge, edge_of_rst hr]

theorem step_of_rst {s : State} (hr : s.pins.rst = true) :
    ∃ t, step s = .next t ∧ t.params = s.params ∧ t.blk = s.blk.resetAction := by
  rw [step_eq, edge_of_rst hr]
  exact ⟨_, rfl, resetAction_params s, resetAction_blk s⟩

/-! ### The cycle after a reset edge (R28, R31) -/

/-- In `IDLE` the line, the indicator, the mask and `busy` are all 0. -/
theorem outputs_of_idle {s : State} (hi : s.blk.st = .idle) :
    s.txOut = false ∧ s.status = false ∧ s.irqMask = false ∧ s.busy = false := by
  refine ⟨?_, ?_, (irqMask_eq_false_iff s).mpr hi, (busy_eq_false_iff s).mpr hi⟩
  · rw [State.txOut, hi]; rfl
  · rw [← Bool.not_eq_true, status_iff]
    exact fun ⟨_, hb, _⟩ => hb hi

/-- Settles O49: every meaning is an edge in which reset wins, and the block it leaves is idle with both pulses 0. -/
theorem resetActionWins : Obligations.ResetActionWins := by
  refine fun s hr => ⟨accepts_of_rst hr, fun i => ⟨s.resetAction, exec_of_rst hr i, ⟨rfl, rfl, rfl⟩, resetAction_blk s⟩, ?_⟩
  obtain ⟨t, ht, hp, hblk⟩ := step_of_rst hr
  have hi : t.blk.st = .idle := by rw [hblk, blockReset_st]
  have hdone : t.done = false := by rw [State.done, hblk, blockReset_doneR]
  have herr : t.cmdErr = false := by rw [State.cmdErr, hblk, blockReset_errR]
  have hready : t.cmdReady = true ↔ t.pins.rst = false := by rw [cmdReady_iff, and_iff_right hi]
  obtain ⟨htx, hstatus, hmask, hbusy⟩ := outputs_of_idle hi
  exact ⟨t, ht, hp, hblk, htx, hstatus, hmask, hbusy, hdone, herr, hready⟩

/-! ### A reset during a transmission (R117) -/

/-- Settles O50: the reset edge leads to `IDLE`, and `done_r` is set only at an edge without reset. -/
theorem resetAbortsTransmission : Obligations.ResetAbortsTransmission := by
  intro s t hb hr h
  have hi : t.blk.st = .idle := (step_st_idle_iff h hb).mpr (.inl hr)
  have hdone : t.done = false := by
    rw [← Bool.not_eq_true, step_done_iff h, hr]
    exact fun ⟨h0, _⟩ => Bool.noConfusion h0
  obtain ⟨htx, hstatus, hmask, hbusy⟩ := outputs_of_idle hi
  exact ⟨htx, hstatus, hmask, hbusy, hdone, hi⟩

/-! ### The parameters of the build (R125) -/

theorem step_params {s t : State} (h : step s = .next t) : t.params = s.params := (step_next_cases h).1

/-- Settles O52, by induction on the length of the run. -/
theorem parametersFixed : Obligations.ParametersFixed := by
  intro k
  induction k with
  | zero =>
    intro s t h
    cases h
    rfl
  | succ k ih =>
    intro s t h
    obtain ⟨u, hu, hk⟩ := runFor_succ_cases h
    exact (ih u t hk).trans (step_params hu)

end Sys2Proof.Machine
end

section
/-! The command word and the encoder: decoding undoes encoding, and a word carries its command in the bits the command reads
(30_encoding.md section 1). -/

namespace Sys2Proof.Machine

/-- Settles O1: the fields of the word `encode` makes are the code and the operands it was made of. -/
theorem decodeOfEncode : Obligations.DecodeOfEncode := by
  intro i
  cases i with
  | deviceOn ctrl dev => simp [encode, decode]
  | deviceOff ctrl dev => simp [encode, decode]
  | groupOn ctrl => simp [encode, decode]
  | groupOff ctrl => simp [encode, decode]
  | deviceDim ctrl dev level => simp [encode, decode]
  | rsv0 => simp [encode, decode]
  | rsv6 => simp [encode, decode]
  | rsv7 => simp [encode, decode]

theorem cmdWord_and (op op' : Op) (ctrl ctrl' dev dev' level level' : Uint) :
    cmdWord op ctrl dev level &&& cmdWord op' ctrl' dev' level' =
      cmdWord (op &&& op') (ctrl &&& ctrl') (dev &&& dev') (level &&& level') := by
  apply BitVec.eq_of_getLsbD_eq
  intro j _
  simp only [BitVec.getLsbD_and, getLsbD_cmdWord]
  split_ifs <;> rfl

/-- The mask of a command is all ones in the fields its encoding takes from the word, and 0 elsewhere. -/
theorem encode_decode_cmdWord (op : Op) (ctrl dev level : Uint) :
    encode (decode (cmdWord op ctrl dev level)) =
      cmdWord op ctrl dev level &&& readMask (decode (cmdWord op ctrl dev level)) := by
  have hop : op &&& 0b111#3 = op := BitVec.and_allOnes
  have hzero (x : Uint) : x &&& 0 = 0 := BitVec.and_zero
  obtain ⟨h0, h1, h2, h3, h4, h5, h6, h7⟩ := commandCodes ctrl dev level
  rcases op_cases op with rfl | rfl | rfl | rfl | rfl | rfl | rfl | rfl
  all_goals
    simp only [h0, h1, h2, h3, h4, h5, h6, h7, encode, readMask, cmdWord_and, hop, hzero, BitVec.and_allOnes]

/-- Settles O2, as every word is made of its four fields. -/
theorem encodeOfDecode : Obligations.EncodeOfDecode := fun w => by
  rw [← cmdWord_fields w]
  exact encode_decode_cmdWord _ _ _ _

/-- Settles O5, by running the decoder on the six words. -/
theorem sampleWordsDecode : Obligations.SampleWordsDecode := by
  unfold Obligations.SampleWordsDecode
  decide

end Sys2Proof.Machine
end

section
/-! The edge and the command port (41_transmitter.md R82, R90; 60_exceptions.md R102, R105): no edge stops the machine, what it
reads of the inputs, and what it leaves unchanged. -/

namespace Sys2Proof.Machine

/-! ### Nothing stops the machine -/

theorem exists_next_edge (s : State) (f : State → State) : ∃ t, s.edge f = .next t := ⟨_, rfl⟩

theorem exists_next_exec (i : Instr) (s : State) : ∃ t, exec i s = .next t := exec_eq_edge i s ▸ exists_next_edge s _

/-- The step is the edge, and then the host's script moves on. -/
theorem step_of_edge {s t : State} (h : s.edge onIdle = .next t) :
    step s = .next { t with script := scriptAfter s.accepts t.blk.doneR s.script } := by
  rw [step_eq, h, State.hostTurn]

theorem exists_next_step (s : State) : ∃ t, step s = .next t := ⟨_, step_of_edge rfl⟩

theorem exists_runFor (k : Nat) (s : State) : ∃ t, runFor k s = some t := by
  induction k generalizing s with
  | zero => exact ⟨s, rfl⟩
  | succ k ih =>
    obtain ⟨u, hu⟩ := exists_next_step s
    rw [runFor_succ_of_step hu]
    exact ih u

/-- Settles O56: an edge answers a next state, the meanings and the step are edges, and a run is steps. -/
theorem machineNeverStops : Obligations.MachineNeverStops := fun s =>
  ⟨fun i => exists_next_exec i s, exists_next_edge s _, exists_next_step s, fun k => exists_runFor k s⟩

/-! ### The command on the port -/

/-- Settles O6: the step is the meaning of the decoded word and then the host's turn. -/
theorem stepRunsPresentedCommand : Obligations.StepRunsPresentedCommand := fun s i hv hi => by
  obtain ⟨t, ht⟩ := exists_next_exec i s
  exact ⟨t, ht, by simp only [step, presented_some_iff.mpr ⟨hv, hi⟩, ht, State.hostTurn]⟩

/-- Settles O7, from the pins the construction drives. -/
theorem presentedWordIsAccepted : Obligations.PresentedWordIsAccepted := fun s w => by
  have hpins := presentNext_pins s w
  have hword : (s.presentNext w).pins.word = w := by rw [hpins, ofWord_word]
  have hvalid : (s.presentNext w).pins.cmdValid = true := by rw [hpins]; rfl
  exact ⟨hword, presented_some_iff.mpr ⟨hvalid, by rw [hword]⟩, (accepts_iff _).mpr ⟨hvalid, rfl, by rw [hpins]; rfl⟩⟩

theorem onIdle_of_not_valid {s : State} (hv : s.pins.cmdValid = false) : onIdle s = s.stayIdle := by
  rw [onIdle, presented_of_not_valid hv]

/-- Settles O9: with nothing presented, `IDLE` clears the pulses, and the edge accepts nothing and is no `done` edge. -/
theorem idleEdgeClearsPulses : Obligations.IdleEdgeClearsPulses := fun s hr hi hv => by
  have haccepts : s.accepts = false := by rw [State.accepts, hv, Bool.false_and]
  have hdone : s.stayIdle.blk.doneR = false := by rw [stayIdle_blk, clearPulses_doneR]
  have hedge : s.edge onIdle = .next s.stayIdle := by rw [edge_of_idle hr hi, onIdle_of_not_valid hv]
  have hstep := step_of_edge hedge
  rw [haccepts, hdone] at hstep
  exact ⟨_, hstep, stayIdle_blk s, rfl, rfl, rfl⟩

/-! ### What an edge reads and leaves unchanged -/

/-- The timing-controller step reads the registers, the parameters and the free values only. -/
theorem tick_congr {s u : State} (hblk : s.blk = u.blk) (hp : s.params = u.params) (hfree : s.freeReads = u.freeReads) :
    s.tick.blk = u.tick.blk ∧ s.tick.freeReads = u.tick.freeReads := by
  constructor
  · change (s.setBlk _).blk = (u.setBlk _).blk
    rw [setBlk_blk, setBlk_blk, hblk, hp, hfree]
  · rw [tick_freeReads, tick_freeReads, hblk, hfree]

/-- Settles O11: a busy block is reset or ticks, as `rst` says, and neither reads the other inputs. -/
theorem inputsIgnoredWhileBusy : Obligations.InputsIgnoredWhileBusy := by
  intro s u t v hblk hp hfree hb hrst hs hu
  obtain ⟨htick, htickFree⟩ := tick_congr hblk hp hfree
  obtain ⟨-, -, ⟨hr, e, f⟩ | ⟨-, hi, -, -⟩ | ⟨hr, -, e, f⟩⟩ := step_next_cases hs
  · obtain ⟨-, -, ⟨-, e', f'⟩ | ⟨hr', -⟩ | ⟨hr', -⟩⟩ := step_next_cases hu
    · rw [e, e', f, f', hblk, hfree]
      exact ⟨rfl, rfl⟩
    all_goals simp [hr, hr'] at hrst
  · exact absurd hi hb
  · obtain ⟨-, -, ⟨hr', -⟩ | ⟨-, hi', -⟩ | ⟨-, -, e', f'⟩⟩ := step_next_cases hu
    · simp [hr, hr'] at hrst
    · exact absurd hi' (hblk ▸ hb)
    · rw [e, e', f, f']
      exact ⟨htick, htickFree⟩

/-- Settles O12, by the three branches of the edge a meaning is: only the timing-controller step counts free values. -/
theorem execChangesOnlyTheBlock : Obligations.ExecChangesOnlyTheBlock := by
  intro i s t h
  rw [exec_eq_edge] at h
  rcases edge_next_cases h with ⟨hr, rfl⟩ | ⟨-, hi, rfl⟩ | ⟨hr, -, rfl⟩
  · exact ⟨rfl, rfl, by simp [hr]⟩
  · obtain ⟨hp, hscript, hfree⟩ := onAcceptance_outside i s
    exact ⟨hp, hscript, by simp [hi, hfree]⟩
  · refine ⟨rfl, rfl, ?_⟩
    rw [tick_freeReads]
    refine if_congr ?_ rfl rfl
    rw [readsAbsent_iff]
    tauto

/-- Settles O33, from the counting branch of the timing-controller step. -/
theorem counterCountsDown : Obligations.CounterCountsDown := fun _ hr hb hc => by
  obtain ⟨t, ht, hp, hblk⟩ := step_of_busy hr hb
  exact ⟨t, ht, hp, hblk.trans (tick_of_cnt_ne_zero hc)⟩

/-! ### The acceptance of a valid command -/

/-- What an edge that leaves `IDLE` is: the acceptance of a valid command. -/
theorem onIdle_busy_iff {s : State} (hi : s.blk.st = .idle) :
    (onIdle s).blk.st ≠ .idle ↔ ∃ i, s.presented = some i ∧ startsTransmission i = true := by
  rcases onIdle_blk_cases s with ⟨hp, e⟩ | ⟨i, hp, hv, e⟩ | ⟨i, _, hp, hv, -, e⟩ <;> simp [*]

theorem onIdle_st_of_busy {s : State} (hi : s.blk.st = .idle) (hb : (onIdle s).blk.st ≠ .idle) :
    (onIdle s).blk.st = .l1h := by
  rcases onIdle_blk_cases s with ⟨-, e⟩ | ⟨_, -, -, e⟩ | ⟨_, _, -, -, -, e⟩
  · simp [e, hi] at hb
  · simp [e, hi] at hb
  · rw [e, blockAccept_st]

/-- Settles O37: from `IDLE`, only the acceptance of a valid command leaves it, and it begins with `L1H`. -/
theorem criticalSectionEntry : Obligations.CriticalSectionEntry := by
  intro s t h hm
  have hi := (irqMask_eq_false_iff s).mp hm
  have hvalid : ∀ i, s.presented = some i → s.pins.cmdValid = true := fun i hp => (presented_some_iff.mp hp).1
  rw [irqMask_iff, accepts_iff]
  obtain ⟨-, -, ⟨hr, e, -⟩ | ⟨hr, -, e, -⟩ | ⟨-, hb, -, -⟩⟩ := step_next_cases h
  · simp [e, hr]
  · rw [e, onIdle_busy_iff hi]
    refine ⟨⟨fun ⟨i, hp, hv⟩ => ⟨⟨hvalid i hp, hi, hr⟩, i, hp, hv⟩, And.right⟩, fun hv => ?_⟩
    have hst := onIdle_st_of_busy hi ((onIdle_busy_iff hi).mpr hv)
    rw [State.txOut, e, hst]
    exact ⟨rfl, rfl⟩
  · exact absurd hi hb

/-- Settles O42: neither reset nor an edge of a transmission writes the buffer, and in `IDLE` only a valid command does. -/
theorem bufferWrittenOnlyByAcceptance : Obligations.BufferWrittenOnlyByAcceptance := by
  intro s t h hinvalid j
  obtain ⟨-, -, ⟨-, e, -⟩ | ⟨hr, hi, e, -⟩ | ⟨-, -, e, -⟩⟩ := step_next_cases h
  · rw [e, blockReset_buf]
  · rw [e]
    rcases onIdle_blk_cases s with ⟨-, e'⟩ | ⟨_, -, -, e'⟩ | ⟨i, _, hp, hv, -, -⟩
    · rw [e', clearPulses_buf]
    · rw [e', pulseErr_buf]
    · rw [hinvalid i ((accepts_iff s).mpr ⟨(presented_some_iff.mp hp).1, hi, hr⟩) hp] at hv
      cases hv
  · rw [e, tick_buf]

/-! ### An index beyond the buffer -/

theorem tick_of_absent {s : State} (hst : s.blk.st = .dh) (hc : s.blk.cnt = 0) (habs : 72 ≤ s.blk.idx.toNat) :
    s.tick.blk =
      { s.blk with
        st := .dl, doneR := false, errR := false
        cnt := Config.absentLoad s.freeReads % 2 ^ cntW s.params } := by
  have hread := (read_eq_none_iff s.blk.buf _).mpr habs
  simpa [hst, hc, habs, hread, Block.movedTo] using tick_cases s

/-- Settles O58: the row of `DH` with an absent entry, and the reset action at the edge after. -/
theorem absentEntryReadsFreeValue : Obligations.AbsentEntryReadsFreeValue := by
  intro s hr hst hc habs
  have hb : s.blk.st ≠ .idle := by rw [hst]; decide
  have hblk := tick_of_absent hst hc habs
  refine ⟨?_, fun i => ⟨s.tick, by rw [exec_eq_edge, edge_of_busy hr hb], hblk⟩⟩
  refine ⟨_, step_of_edge (edge_of_busy hr hb onIdle), rfl, ?_, hblk, fun hrst u hu => ?_⟩
  · exact if_pos ((readsAbsent_iff _).mpr ⟨hc, hst, habs⟩)
  · obtain ⟨v, hv, -, e⟩ := step_of_rst hrst
    rw [hu] at hv
    cases hv
    have hi : u.blk.st = .idle := by rw [e, blockReset_st]
    exact ⟨hi, (irqMask_eq_false_iff u).mpr hi⟩

end Sys2Proof.Machine
end

section
/-! The invariant of the states after a reset (10_state.md R22, R24; 60_exceptions.md section 3): a reset establishes it, every
edge keeps it, and so no run from it reads beyond the pulse buffer (20_memory.md R34). -/

namespace Sys2Proof.Machine

/-! ### Where the invariant begins -/

theorem segmentUs_of_idle {b : Block} (hi : b.st = .idle) : b.segmentUs = none := by
  rw [Block.segmentUs, hi]

/-- In `IDLE` there is neither an index nor a segment to bound. -/
theorem inv_of_idle {s : State} (hp : s.params.wellFormed = true) (hi : s.blk.st = .idle)
    (hpulses : ¬ (s.blk.doneR = true ∧ s.blk.errR = true)) : Inv s where
  build := hp
  index hd := by rw [hi] at hd; cases hd
  segment _ := by rw [segmentUs_of_idle hi]; exact fun h => nomatch h
  donePulse _ := hi
  errPulse _ := hi
  pulses := hpulses

/-- Settles O51, from the fields of the reset block. -/
theorem resetState : Obligations.ResetState := fun p => by
  obtain ⟨htx, hstatus, hmask, hbusy⟩ := outputs_of_idle (s := State.resetIn p) rfl
  exact ⟨rfl, rfl, rfl, rfl, rfl, rfl, rfl, rfl, htx, hstatus, hmask, hbusy⟩

/-- Settles O54: the state after reset is in `IDLE` with both pulses 0. -/
theorem resetStateSatisfiesInv : Obligations.ResetStateSatisfiesInv := fun _ hp =>
  inv_of_idle hp rfl fun ⟨h, _⟩ => Bool.noConfusion h

/-- Settles O55: whatever the registers held, the reset action leaves `IDLE` with both pulses 0. -/
theorem oneResetEdgeEstablishesInv : Obligations.OneResetEdgeEstablishesInv := fun s hp hr => by
  obtain ⟨t, ht, hparams, hblk⟩ := step_of_rst hr
  exact ⟨t, ht, inv_of_idle (hparams ▸ hp) (by simp [hblk]) (by simp [hblk])⟩

/-! ### The pulses -/

/-- After an edge each pulse is up only in `IDLE`, and only one of them: `done_r` follows a busy cycle, `err_r` an `IDLE` one. -/
theorem step_pulses {s t : State} (h : step s = .next t) :
    (t.blk.doneR = true → t.blk.st = .idle) ∧ (t.blk.errR = true → t.blk.st = .idle) ∧
      ¬ (t.blk.doneR = true ∧ t.blk.errR = true) := by
  have idle_before_err : t.blk.errR = true → s.blk.st = .idle := fun he =>
    ((accepts_iff s).mp ((step_errR_iff h).mp he).1).2.1
  refine ⟨fun hd => ((step_doneR_iff h).mp hd).2.2, fun he => ?_, fun ⟨hd, he⟩ => ?_⟩
  · obtain ⟨-, -, ⟨-, e, -⟩ | ⟨-, hi, e, -⟩ | ⟨-, hb, -, -⟩⟩ := step_next_cases h
    · rw [e, blockReset_st]
    · rw [e] at he ⊢
      rcases onIdle_blk_cases s with ⟨-, e'⟩ | ⟨_, -, -, e'⟩ | ⟨_, _, -, -, -, e'⟩ <;> simp_all
    · exact absurd (idle_before_err he) hb
  · exact ((step_doneR_iff h).mp hd).2.1 (idle_before_err he)

/-- Settles O41, from the cycles the two pulses follow. -/
theorem pulsesNeverTogether : Obligations.PulsesNeverTogether := fun _ _ h => (step_pulses h).2.2

/-! ### The edge of a transmission -/

@[simp] theorem movedTo_len (b : Block) (p : Params) (st : SeqState) (d : Nat) (idx : BitVec 7) (rep : BitVec 1) :
    (b.movedTo p st d idx rep).len = b.len := rfl
@[simp] theorem movedTo_idx (b : Block) (p : Params) (st : SeqState) (d : Nat) (idx : BitVec 7) (rep : BitVec 1) :
    (b.movedTo p st d idx rep).idx = idx := rfl

theorem len_eq (b : Block) : b.len = if b.isDim then 72 else 64 := rfl

theorem len_le (b : Block) : b.len ≤ 72 := by
  rw [len_eq]
  split <;> decide

theorem len_pos (b : Block) : 0 < b.len := by
  rw [len_eq]
  split <;> decide

/-- The next index fits the register where it is below `len`. -/
theorem toNat_idx_succ {b : Block} (h : b.idx.toNat + 1 < b.len) : (b.idx + 1).toNat = b.idx.toNat + 1 := by
  have := len_le b
  rw [BitVec.toNat_add]
  exact Nat.mod_eq_of_lt (by simp; omega)

/-- The data states keep an index below `len`: `L2L` enters them at 0, and `DL` goes on only below `len`. -/
theorem tick_index {s : State} (h : s.blk.st.isData = true → s.blk.idx.toNat < s.blk.len)
    (hd : s.tick.blk.st.isData = true) : s.tick.blk.idx.toNat < s.tick.blk.len := by
  rcases tick_cases s with
    ⟨-, e⟩ | ⟨-, ⟨hs, e⟩ | ⟨hs, e⟩ | ⟨hs, e⟩ | ⟨hs, e⟩ | ⟨hs, e⟩ | ⟨hs, _, -, e⟩ | ⟨hs, habs, -⟩ | ⟨hs, hl, e⟩ |
      ⟨hs, -, e⟩ | ⟨hs, e⟩ | ⟨hs, e⟩ | ⟨hs, -, e⟩ | ⟨hs, -, e⟩⟩
  case inl => rw [e] at hd ⊢; exact h hd
  case inr.inr.inr.inr.inr.inl => rw [e]; exact len_pos s.blk
  case inr.inr.inr.inr.inr.inr.inl => rw [e]; exact h (by rw [hs]; rfl)
  case inr.inr.inr.inr.inr.inr.inr.inl =>
    exact absurd (h (by rw [hs]; rfl)) (Nat.not_lt.mpr ((len_le s.blk).trans habs))
  case inr.inr.inr.inr.inr.inr.inr.inr.inl => rw [e, movedTo_idx, movedTo_len, toNat_idx_succ hl]; exact hl
  all_goals
    rw [e] at hd
    simp [hs, SeqState.isData] at hd

/-- A counting edge stays in its segment; one that ends a segment loads the next. -/
theorem tick_segment {s : State} (hp : s.params.wellFormed = true) (hb : s.blk.st ≠ .idle)
    (h : ∀ d, s.blk.segmentUs = some d → s.blk.cnt < seg s.params d) {d : Nat} (hd : s.tick.blk.segmentUs = some d) :
    s.tick.blk.cnt < seg s.params d := by
  by_cases hc : s.blk.cnt = 0
  · rw [tick_loaded hb hc d hd]
    exact Nat.sub_one_lt (Nat.ne_of_gt (seg_pos hp (segmentUs_pos hd)))
  · rw [tick_of_cnt_ne_zero hc] at hd ⊢
    exact (Nat.sub_le _ _).trans_lt (h d hd)

/-! ### Every edge keeps the invariant -/

/-- Settles O53, by the three kinds of edge: after a reset, and in `IDLE` without an acceptance, nothing is to be bounded; an
acceptance loads the first segment; and an edge of a transmission keeps both bounds. -/
theorem stepKeepsInv : Obligations.StepKeepsInv := by
  intro s t hs h
  obtain ⟨hdone, herr, hboth⟩ := step_pulses h
  obtain ⟨hp, -, ⟨-, e, -⟩ | ⟨-, hi, e, -⟩ | ⟨-, hb, e, -⟩⟩ := step_next_cases h
  all_goals have hbuild : t.params.wellFormed = true := hp ▸ hs.build
  · exact inv_of_idle hbuild (by simp [e]) hboth
  · rcases onIdle_blk_cases s with ⟨-, e'⟩ | ⟨_, -, -, e'⟩ | ⟨_, _, -, -, -, e'⟩
    · exact inv_of_idle hbuild (by simp [e, e', hi]) hboth
    · exact inv_of_idle hbuild (by simp [e, e', hi]) hboth
    · refine ⟨hbuild, fun hd => ?_, fun d hd => ?_, hdone, herr, hboth⟩
      · rw [e, e'] at hd
        cases hd
      · rw [e, e'] at hd ⊢
        cases hd
        rw [hp, blockAccept_cnt]
        exact Nat.sub_one_lt (Nat.ne_of_gt (seg_pos hs.build (by decide)))
  · exact ⟨hbuild, e ▸ tick_index hs.index, fun d hd => by rw [e] at hd ⊢; exact hp ▸ tick_segment hs.build hb hs.segment hd,
      hdone, herr, hboth⟩

/-! ### Runs from a state of the invariant -/

/-- In the invariant a data state's index names an entry of the buffer. -/
theorem exists_read_of_inv {s : State} (hs : Inv s) (hd : s.blk.st.isData = true) :
    ∃ d, PulseBuffer.read s.blk.buf s.blk.idx.toNat = some d :=
  ⟨_, read_of_lt _ ((hs.index hd).trans_le (len_le s.blk))⟩

theorem readsAbsent_of_inv {s : State} (hs : Inv s) : s.blk.readsAbsent = false := by
  rw [← Bool.not_eq_true, readsAbsent_iff]
  rintro ⟨-, hst, habs⟩
  have hlt := hs.index (by rw [hst]; rfl)
  have := len_le s.blk
  omega

theorem step_freeReads_of_inv {s t : State} (hs : Inv s) (h : step s = .next t) : t.freeReads = s.freeReads := by
  obtain ⟨-, -, ⟨-, -, e⟩ | ⟨-, -, -, e⟩ | ⟨-, -, -, e⟩⟩ := step_next_cases h
  · exact e
  · exact e
  · rw [e, tick_freeReads, readsAbsent_of_inv hs]
    rfl

theorem runFor_of_inv {k : Nat} {s t : State} (hs : Inv s) (h : runFor k s = some t) :
    Inv t ∧ t.freeReads = s.freeReads := by
  induction k generalizing s with
  | zero => cases h; exact ⟨hs, rfl⟩
  | succ k ih =>
    obtain ⟨u, hu, hk⟩ := runFor_succ_cases h
    obtain ⟨ht, hfree⟩ := ih (stepKeepsInv s u hs hu) hk
    exact ⟨ht, hfree.trans (step_freeReads_of_inv hs hu)⟩

/-- Settles O57: the invariant holds along the run, and it bounds the index. -/
theorem bufferIndexInRange : Obligations.BufferIndexInRange := by
  intro k s t hs h
  obtain ⟨ht, hfree⟩ := runFor_of_inv hs h
  refine ⟨hfree, fun hst => ?_⟩
  have hd : t.blk.st.isData = true := by rcases hst with hst | hst <;> rw [hst] <;> rfl
  exact ⟨ht.index hd, exists_read_of_inv ht hd⟩

end Sys2Proof.Machine
end

section
/-! Frames and their pulse sequences (40_frame_encoder.md section 3, 30_encoding.md R60): the line code can be undone, what
distinguishes the frames of two commands, their length, their low time and their frame word. -/

namespace Sys2Proof.Machine

/-! ### The line code undone -/

@[simp] theorem symbolOf_code (y : FrameSym) : symbolOf (code y).1 (code y).2 = some y := by cases y <;> rfl

/-- The two halves of the pair of each offset. -/
theorem getElem?_expand_eq_map (F : Frame) (k : Nat) :
    (expand F)[2 * k]? = F[k]?.map (fun y => (code y).1) ∧
      (expand F)[2 * k + 1]? = F[k]?.map (fun y => (code y).2) := by
  cases h : F[k]? with
  | some y => exact getElem?_expand h
  | none =>
    have hk := List.getElem?_eq_none_iff.mp h
    constructor <;> exact List.getElem?_eq_none (by rw [length_expand]; omega)

/-- Settles O30: the pair of an offset is the code of its symbol, which the inverse table takes back. -/
theorem symbolsRecoveredFromPulses : Obligations.SymbolsRecoveredFromPulses := by
  refine ⟨rfl, fun F k a b ha hb => ?_⟩
  obtain ⟨hfst, hsnd⟩ := getElem?_expand_eq_map F k
  rw [hfst] at ha
  rw [hsnd] at hb
  cases h : F[k]? with
  | none => rw [h] at ha; cases ha
  | some y =>
    rw [h] at ha hb
    cases ha
    cases hb
    exact ⟨(symbolOf_code y).symm, Option.some_ne_none y⟩

theorem code_injective : Function.Injective code := fun y z h => by
  have hy := symbolOf_code y
  rw [h, symbolOf_code] at hy
  exact (Option.some.inj hy).symm

/-- Frames with the same pulses are the same. -/
theorem expand_injective : Function.Injective expand := by
  intro F
  induction F with
  | nil => rintro (_ | ⟨z, G⟩) h <;> simp_all
  | cons y F ih =>
    rintro (_ | ⟨z, G⟩) h
    · simp at h
    · simp only [expand_cons, List.cons.injEq] at h
      obtain ⟨hfst, hsnd, hrest⟩ := h
      rw [code_injective (Prod.ext hfst hsnd), ih hrest]

theorem ofBit_injective : Function.Injective FrameSym.ofBit := by decide

/-- Settles O27: the frames are equal, and the first 26 symbols of a frame are the bits of its controller id. -/
theorem controllerExpansionInjective : Obligations.ControllerExpansionInjective := by
  intro c c' group on d appended h
  have hframe := expand_injective h
  apply BitVec.eq_of_getLsbD_eq
  intro j hj
  have hbit := congrArg (fun F : Frame => F[25 - j]?) hframe
  simp only [getElem?_frameOf_ctrl (show 25 - j < 26 by omega), show 25 - (25 - j) = j by omega, Option.some.injEq] at hbit
  exact ofBit_injective hbit

/-! ### Frames that differ in the on/off slot (R66 to R70) -/

theorem frameOf_set_on (c : CtrlField) (group on on' : FrameSym) (d : Nibble) (appended : Frame) :
    frameOf c group on' d appended = (frameOf c group on d appended).set 27 on' := by
  simp [frameOf_eq]

theorem frameOf_appended (c : CtrlField) (group on : FrameSym) (d : Nibble) (appended : Frame) :
    frameOf c group on d appended = frameOf c group on d [] ++ appended := by
  simp [frameOf]

/-- Equal symbols have equal pulses at both entries of their pair. -/
theorem getElem?_expand_congr {F G : Frame} {j : Nat} (h : F[j / 2]? = G[j / 2]?) :
    (expand F)[j]? = (expand G)[j]? := by
  obtain ⟨hF, hF'⟩ := getElem?_expand_eq_map F (j / 2)
  obtain ⟨hG, hG'⟩ := getElem?_expand_eq_map G (j / 2)
  rcases Nat.mod_two_eq_zero_or_one j with hj | hj
  · rw [show j = 2 * (j / 2) by omega, hF, hG, h]
  · rw [show j = 2 * (j / 2) + 1 by omega, hF', hG', h]

/-- Frames with another on/off slot have the same pulses but for entries 54 and 55. -/
theorem getElem?_expand_on (c : CtrlField) (group on on' : FrameSym) (d : Nibble) (appended : Frame) {j : Nat}
    (h54 : j ≠ 54) (h55 : j ≠ 55) :
    (expand (frameOf c group on d appended))[j]? = (expand (frameOf c group on' d appended))[j]? := by
  apply getElem?_expand_congr
  rw [frameOf_set_on c group on on', List.getElem?_set_ne (by omega)]

/-- An `ON` and an `OFF` slot differ in both entries of the pair. -/
theorem getElem?_expand_on_off (c : CtrlField) (group : FrameSym) (d : Nibble) (appended : Frame) (j : Nat) :
    (expand (frameOf c group .one d appended))[j]? = (expand (frameOf c group .zero d appended))[j]? ↔
      j ≠ 54 ∧ j ≠ 55 := by
  refine ⟨fun h => ?_, fun ⟨h54, h55⟩ => getElem?_expand_on c group .one .zero d appended h54 h55⟩
  obtain ⟨hone, hone'⟩ := getElem?_expand (getElem?_frameOf_on c group .one d appended)
  obtain ⟨hzero, hzero'⟩ := getElem?_expand (getElem?_frameOf_on c group .zero d appended)
  constructor <;> rintro rfl
  · cases hone.symm.trans (h.trans hzero)
  · cases hone'.symm.trans (h.trans hzero')

/-- What a frame appends stands beyond its first 64 pulses. -/
theorem getElem?_expand_appended (c : CtrlField) (group on : FrameSym) (d : Nibble) (appended : Frame) {j : Nat}
    (hj : j < 64) :
    (expand (frameOf c group on d appended))[j]? = (expand (frameOf c group on d []))[j]? := by
  apply getElem?_expand_congr
  rw [frameOf_appended, List.getElem?_append_left (by simp; omega)]

/-- Settles O22: the frames differ in their on/off slot, and a dim frame in what it appends. -/
theorem commandsDifferOnlyInOnFlag : Obligations.CommandsDifferOnlyInOnFlag := by
  intro p c d l on off gon goff dim hon hoff hgon hgoff hdim
  cases hon
  cases hoff
  cases hgon
  cases hgoff
  cases hdim
  refine ⟨getElem?_expand_on_off _ _ _ _, getElem?_expand_on_off _ _ _ _, fun j hj h54 h55 => ?_⟩
  exact (getElem?_expand_on _ _ _ .dim _ _ h54 h55).trans (getElem?_expand_appended _ _ _ _ _ hj).symm

/-! ### The length law -/

/-- The layout of a command's frame: a dim frame marks its on/off slot and appends a field, any other holds bits. -/
theorem frame_cases {p : Params} {i : Instr} {F : Frame} (h : frame p i = some F) :
    (sendsDim i = false ∧ ∃ c group on d, F = frameOf c (FrameSym.ofBit group) (FrameSym.ofBit on) d []) ∨
    (sendsDim i = true ∧ ∃ c d m, F = packDeviceDim c d m) := by
  cases i <;> cases h
  case deviceOn ctrl dev => exact .inl ⟨rfl, _, false, true, _, rfl⟩
  case deviceOff ctrl dev => exact .inl ⟨rfl, _, false, false, _, rfl⟩
  case groupOn ctrl => exact .inl ⟨rfl, _, true, true, _, rfl⟩
  case groupOff ctrl => exact .inl ⟨rfl, _, true, false, _, rfl⟩
  case deviceDim ctrl dev level => exact .inr ⟨rfl, _, _, _, rfl⟩

theorem length_expand_of_frame {p : Params} {i : Instr} {F : Frame} (h : frame p i = some F) :
    (expand F).length = if sendsDim i then 72 else 64 := by
  rcases frame_cases h with ⟨hd, c, group, on, d, rfl⟩ | ⟨hd, c, d, m, rfl⟩
  · simp [hd]
  · simp [hd, packDeviceDim]

theorem exec_accepts {i : Instr} {s : State} {F : Frame} (hf : frame s.params i = some F) (hr : s.pins.rst = false)
    (hi : s.blk.st = .idle) : exec i s = .next (s.accept (sendsDim i) F) := by
  rw [exec_eq_edge, edge_of_idle hr hi, onAcceptance, hf]

/-- The length an acceptance sets is that of the frame's pulse sequence. -/
theorem accept_len {i : Instr} {s : State} {F : Frame} (hf : frame s.params i = some F) :
    (s.accept (sendsDim i) F).blk.len = (expand F).length := by
  rw [length_expand_of_frame hf, accept_blk]
  rfl

/-- An acceptance writes the pulse sequence of its frame, and leaves the entries beyond it. -/
theorem read_accept_of_frame {i : Instr} {s : State} {F : Frame} (hf : frame s.params i = some F) (j : Nat) :
    PulseBuffer.read (s.accept (sendsDim i) F).blk.buf j =
      if j < (expand F).length then (expand F)[j]? else PulseBuffer.read s.blk.buf j := by
  have hle : (expand F).length ≤ 72 := accept_len hf ▸ len_le _
  rw [accept_blk, blockAccept_buf, read_write]
  split_ifs with h72 hlt hlt
  · rfl
  · rfl
  · omega
  · exact ((read_eq_none_iff _ _).mpr (Nat.not_lt.mp h72)).symm

/-- Settles O20, from what an acceptance writes and the length of each frame. -/
theorem acceptedLength : Obligations.AcceptedLength := by
  intro i F s t hf hr hi h
  rw [exec_accepts hf hr hi] at h
  cases h
  rw [accept_len hf]
  exact ⟨length_expand_of_frame hf, rfl, read_accept_of_frame hf⟩

/-- Settles O21: a command's frame depends on the parameters alone, and below its length only the frame is read. -/
theorem sameCommandSamePulses : Obligations.SameCommandSamePulses := by
  intro i s u t v hv hp hs hu ht hw
  obtain ⟨-, his, hrs⟩ := (accepts_iff s).mp hs
  obtain ⟨-, hiu, hru⟩ := (accepts_iff u).mp hu
  obtain ⟨F, hf⟩ := exists_frame_of_startsTransmission hv s.params
  have hf' : frame u.params i = some F := hp ▸ hf
  rw [exec_accepts hf hrs his] at ht
  rw [exec_accepts hf' hru hiu] at hw
  cases ht
  cases hw
  refine ⟨by rw [accept_blk, accept_blk]; rfl, by rw [accept_len hf, accept_len hf'], fun j hj => ?_⟩
  rw [accept_len hf] at hj
  rw [read_accept_of_frame hf, read_accept_of_frame hf', if_pos hj, if_pos hj]

/-! ### The low time (R76) -/

/-- The low time of one symbol: 1500 µs for a bit, 550 µs for the reserved slot. -/
def FrameSym.lowUs (y : FrameSym) : Nat := (code y).1.us + (code y).2.us

theorem lowUs_ofBit (b : Bool) : (FrameSym.ofBit b).lowUs = 1500 := by cases b <;> rfl

theorem lowTime_expand_cons (y : FrameSym) (F : Frame) : lowTime (expand (y :: F)) = y.lowUs + lowTime (expand F) := by
  simp [lowTime, FrameSym.lowUs, Nat.add_assoc]

theorem lowTime_expand_bits_append (n v : Nat) (F : Frame) :
    lowTime (expand (bits n v ++ F)) = 1500 * n + lowTime (expand F) := by
  induction n with
  | zero => simp [bits]
  | succ n ih =>
    rw [bits_succ, List.cons_append, lowTime_expand_cons, lowUs_ofBit, ih]
    omega

theorem lowTime_frameOf (c : CtrlField) (group on : FrameSym) (d : Nibble) (appended : Frame) :
    lowTime (expand (frameOf c group on d appended)) = 45000 + group.lowUs + on.lowUs + lowTime (expand appended) := by
  rw [frameOf_eq, lowTime_expand_bits_append, lowTime_expand_cons, lowTime_expand_cons, lowTime_expand_bits_append]
  omega

theorem lowTime_expand_of_frame {p : Params} {i : Instr} {F : Frame} (h : frame p i = some F) :
    lowTime (expand F) = if sendsDim i then 53050 else 48000 := by
  rcases frame_cases h with ⟨hd, c, group, on, d, rfl⟩ | ⟨hd, c, d, m, rfl⟩
  · rw [lowTime_frameOf, lowUs_ofBit, lowUs_ofBit, hd]
    rfl
  · have hm := lowTime_expand_bits_append 4 m.toNat []
    rw [List.append_nil] at hm
    rw [packDeviceDim, lowTime_frameOf, hm, hd]
    rfl

/-- Settles O31: every bit takes the same low time, and only a dim frame has the reserved slot and four bits more. -/
theorem lowTimeOfCommands : Obligations.LowTimeOfCommands := fun _ _ _ h => lowTime_expand_of_frame h

/-! ### The frame word (R60) -/

/-- The number whose binary digits, after those of `w`, are the symbols of a frame. -/
def wordFrom (w : Nat) (F : Frame) : Nat := F.foldl (fun w y => 2 * w + (if y = .one then 1 else 0)) w

@[simp] theorem wordFrom_nil (w : Nat) : wordFrom w [] = w := rfl

@[simp] theorem wordFrom_ofBit_cons (w : Nat) (b : Bool) (F : Frame) :
    wordFrom w (FrameSym.ofBit b :: F) = wordFrom (2 * w + b.toNat) F := by
  cases b <;> rfl

theorem wordFrom_bits_append (w n v : Nat) (F : Frame) :
    wordFrom w (bits n v ++ F) = wordFrom (w * 2 ^ n + trunc n v) F := by
  induction n generalizing w with
  | zero => simp [bits, trunc, Nat.mod_one]
  | succ n ih =>
    rw [bits_succ, List.cons_append, wordFrom_ofBit_cons, ih, trunc_succ]
    congr 1
    ring

theorem dim_notMem_bits (n v : Nat) : FrameSym.dim ∉ bits n v := by
  induction n with
  | zero => simp [bits]
  | succ n ih =>
    rw [bits_succ, List.mem_cons]
    rintro (h | h)
    · cases hb : v.testBit n <;> rw [hb] at h <;> cases h
    · exact ih h

theorem trunc_toNat {n : Nat} (v : BitVec n) : trunc n v.toNat = v.toNat := Nat.mod_eq_of_lt v.isLt

/-- The frame word of 32 bits in its fields. -/
theorem frameWord_frameOf (c : CtrlField) (group on : Bool) (d : Nibble) :
    frameWord (frameOf c (FrameSym.ofBit group) (FrameSym.ofBit on) d []) =
      some (c.toNat * 64 + group.toNat * 32 + on.toNat * 16 + d.toNat) := by
  have hbit (b : Bool) : FrameSym.dim ≠ FrameSym.ofBit b := by cases b <;> decide
  have hdim : FrameSym.dim ∉ frameOf c (FrameSym.ofBit group) (FrameSym.ofBit on) d [] := by
    simp [frameOf_eq, dim_notMem_bits, hbit]
  have hword : wordFrom 0 (frameOf c (FrameSym.ofBit group) (FrameSym.ofBit on) d []) =
      c.toNat * 64 + group.toNat * 32 + on.toNat * 16 + d.toNat := by
    rw [frameOf_eq, wordFrom_bits_append, wordFrom_ofBit_cons, wordFrom_ofBit_cons, wordFrom_bits_append, wordFrom_nil,
      trunc_toNat, trunc_toNat]
    omega
  exact (if_pos ⟨length_frameOf .., hdim⟩).trans (congrArg some hword)

/-- Settles O32, from the fields of the frame word; a dim frame has 36 symbols. -/
theorem frameWordFields : Obligations.FrameWordFields := by
  intro c d m
  refine ⟨?_, ?_, ?_, ?_, ?_⟩
  · exact (frameWord_frameOf c false true d).trans (by simp)
  · exact (frameWord_frameOf c false false d).trans (by simp)
  · exact (frameWord_frameOf c true true 0).trans (by simp)
  · exact (frameWord_frameOf c true false 0).trans (by simp)
  · exact if_neg fun ⟨hlen, _⟩ => by simp [packDeviceDim] at hlen

end Sys2Proof.Machine
end

section
/-! Buffer entries no rule reads (10_state.md R26, R32): two machines that differ in them only go on differing in them only, and
show the same outputs. -/

namespace Sys2Proof.Machine

/-! ### The outputs -/

theorem SameButStale.st {s u : State} (h : SameButStale s u) : s.blk.st = u.blk.st := by rw [← h.registers]

theorem SameButStale.pins {s u : State} (h : SameButStale s u) : s.pins = u.pins := by
  rw [State.pins, State.pins, h.script]

theorem SameButStale.accepts {s u : State} (h : SameButStale s u) : s.accepts = u.accepts := by
  rw [State.accepts, State.accepts, State.cmdReady, State.cmdReady, h.pins, h.st]

theorem SameButStale.presented {s u : State} (h : SameButStale s u) : s.presented = u.presented := by
  rw [State.presented, State.presented, h.pins]

/-- No output reads the pulse buffer. -/
theorem SameButStale.outputs {s u : State} (h : SameButStale s u) : s.outputs = u.outputs := by
  have hdone : s.blk.doneR = u.blk.doneR := by rw [← h.registers]
  have herr : s.blk.errR = u.blk.errR := by rw [← h.registers]
  simp only [State.outputs, State.txOut, State.status, State.irqMask, State.busy, State.cmdReady, State.done,
    State.cmdErr, h.st, h.pins, h.params, hdone, herr]

/-! ### The timing-controller step -/

/-- The block with another pulse buffer. -/
def Block.withBuf (b : Block) (buf : PulseBuffer) : Block := { b with buf := buf }

/-- The row of `DH` is the one that reads the buffer, at `idx`. -/
theorem segmentEnd_withBuf {b : Block} {buf : PulseBuffer}
    (hread : b.st = .dh → PulseBuffer.read buf b.idx.toNat = PulseBuffer.read b.buf b.idx.toNat) (p : Params)
    (free : Nat) : (b.withBuf buf).segmentEnd p free = (b.segmentEnd p free).withBuf buf := by
  unfold Block.segmentEnd
  rw [show (b.withBuf buf).st = b.st from rfl]
  cases hst : b.st
  case dh =>
    have hload : (b.withBuf buf).pulseLoad p free = b.pulseLoad p free := by
      rw [Block.pulseLoad, Block.pulseLoad, ← hread hst]
      rfl
    simp only [hload]
    rfl
  case dl =>
    change ite (b.idx.toNat + 1 < b.len) _ _ = Block.withBuf (ite (b.idx.toNat + 1 < b.len) _ _) buf
    split <;> rfl
  case gap =>
    change ite (b.rep = 0) _ _ = Block.withBuf (ite (b.rep = 0) _ _) buf
    split <;> rfl
  all_goals rfl

theorem tick_withBuf {b : Block} {buf : PulseBuffer}
    (hread : b.st = .dh → PulseBuffer.read buf b.idx.toNat = PulseBuffer.read b.buf b.idx.toNat) (p : Params)
    (free : Nat) : (b.withBuf buf).tick p free = (b.tick p free).withBuf buf := by
  have hend : b.clearPulses.st = .dh → _ := hread
  rw [Block.tick, Block.tick, apply_ite (Block.withBuf · buf), ← segmentEnd_withBuf hend]
  rfl

@[simp] theorem tick_isDim (s : State) : s.tick.blk.isDim = s.blk.isDim := by
  rcases tick_cases s with
    ⟨-, e⟩ | ⟨-, ⟨-, e⟩ | ⟨-, e⟩ | ⟨-, e⟩ | ⟨-, e⟩ | ⟨-, e⟩ | ⟨-, _, -, e⟩ | ⟨-, -, e⟩ | ⟨-, -, e⟩ | ⟨-, -, e⟩ |
      ⟨-, e⟩ | ⟨-, e⟩ | ⟨-, -, e⟩ | ⟨-, -, e⟩⟩
  all_goals simp [e, Block.movedTo]

@[simp] theorem tick_len (s : State) : s.tick.blk.len = s.blk.len := by rw [len_eq, len_eq, tick_isDim]

/-- An edge of a transmission in the invariant reads an entry below `len` only. -/
theorem tick_of_sameButStale {s u : State} (hs : Inv s) (h : SameButStale s u) (hb : s.blk.st ≠ .idle) :
    s.tick.blk.withBuf u.tick.blk.buf = u.tick.blk ∧ s.tick.freeReads = u.tick.freeReads := by
  have hreg : s.blk.withBuf u.blk.buf = u.blk := h.registers
  have hread : s.blk.st = .dh → PulseBuffer.read u.blk.buf s.blk.idx.toNat = PulseBuffer.read s.blk.buf s.blk.idx.toNat :=
    fun hst => (h.entries hb _ (hs.index (by rw [hst]; rfl))).symm
  have htick (free : Nat) : u.blk.tick s.params free = (s.blk.tick s.params free).withBuf u.blk.buf := by
    rw [← tick_withBuf hread, hreg]
  constructor
  · rw [tick_buf]
    change _ = (u.setBlk (u.blk.tick u.params (Config.absentLoad u.freeReads))).blk
    rw [← h.params, ← h.freeReads, htick, setBlk_blk, ← h.params]
    rfl
  · have habs : s.blk.readsAbsent = u.blk.readsAbsent := by rw [← hreg]; rfl
    rw [tick_freeReads, tick_freeReads, habs, h.freeReads]

/-! ### The step -/

/-- The acceptance of a command writes every entry below the new `len`. -/
theorem onIdle_of_sameButStale {s u : State} (h : SameButStale s u) (hi : s.blk.st = .idle) :
    (onIdle s).blk.withBuf (onIdle u).blk.buf = (onIdle u).blk ∧
    ((onIdle s).blk.st ≠ .idle → ∀ j, j < (onIdle s).blk.len →
      PulseBuffer.read (onIdle s).blk.buf j = PulseBuffer.read (onIdle u).blk.buf j) := by
  have hreg : s.blk.withBuf u.blk.buf = u.blk := h.registers
  cases hp : s.presented with
  | none =>
    have e : (onIdle s).blk = s.blk.clearPulses := by rw [onIdle, hp]; exact stayIdle_blk s
    have e' : (onIdle u).blk = u.blk.clearPulses := by
      rw [onIdle, ← h.presented, hp]; exact stayIdle_blk u
    rw [e, e', ← hreg]
    exact ⟨rfl, fun hb => absurd hi hb⟩
  | some i =>
    have e : onIdle s = onAcceptance i s := by rw [onIdle, hp]
    have e' : onIdle u = onAcceptance i u := by rw [onIdle, ← h.presented, hp]
    rw [e, e', onAcceptance, onAcceptance, ← h.params]
    cases hf : frame s.params i with
    | none =>
      simp only [raiseCmdErr_blk]
      rw [← hreg]
      exact ⟨rfl, fun hb => absurd hi hb⟩
    | some F =>
      have hf' : frame u.params i = some F := h.params ▸ hf
      refine ⟨by simp only [accept_blk, h.params]; rfl, fun _ j hj => ?_⟩
      rw [accept_len hf] at hj
      rw [read_accept_of_frame hf, read_accept_of_frame hf', if_pos hj, if_pos hj]

/-- The three kinds of edge keep the relation. -/
theorem step_of_sameButStale {s u t v : State} (hs : Inv s) (h : SameButStale s u) (ht : step s = .next t)
    (hv : step u = .next v) : SameButStale t v := by
  obtain ⟨htp, htscript, htcases⟩ := step_next_cases ht
  obtain ⟨hvp, hvscript, hvcases⟩ := step_next_cases hv
  have hparams : t.params = v.params := by rw [htp, hvp, h.params]
  have hscript : t.blk.doneR = v.blk.doneR → t.script = v.script := fun hd => by
    rw [htscript, hvscript, h.accepts, hd, h.script]
  rw [← h.pins, ← h.st] at hvcases
  rcases htcases with ⟨hr, e, f⟩ | ⟨hr, hi, e, f⟩ | ⟨hr, hb, e, f⟩
  · obtain ⟨e', f'⟩ : v.blk = u.blk.resetAction ∧ v.freeReads = u.freeReads := by simpa [hr] using hvcases
    exact ⟨by rw [e, e']; rfl, hparams, hscript (by rw [e, e']; rfl), by rw [f, f', h.freeReads],
      fun hb => absurd (by rw [e]; rfl) hb⟩
  · obtain ⟨e', f'⟩ : v.blk = (onIdle u).blk ∧ v.freeReads = u.freeReads := by simpa [hr, hi] using hvcases
    obtain ⟨hreg, hentries⟩ := onIdle_of_sameButStale h hi
    rw [← e, ← e'] at hreg hentries
    exact ⟨hreg, hparams, hscript (by rw [← hreg]; rfl), by rw [f, f', h.freeReads], hentries⟩
  · obtain ⟨e', f'⟩ : v.blk = u.tick.blk ∧ v.freeReads = u.tick.freeReads := by simpa [hr, hb] using hvcases
    obtain ⟨hreg, hfree⟩ := tick_of_sameButStale hs h hb
    have hreg' : t.blk.withBuf v.blk.buf = v.blk := by rw [e, e', hreg]
    refine ⟨hreg', hparams, hscript (by rw [← hreg']; rfl), by rw [f, f', hfree], fun _ j hj => ?_⟩
    rw [e, tick_len] at hj
    rw [e, e', tick_buf, tick_buf]
    exact h.entries hb j hj

/-- Settles O45: the step keeps the relation, under which the outputs are equal. -/
theorem staleEntriesUnobservable : Obligations.StaleEntriesUnobservable := fun _ _ _ _ hs h ht hv =>
  ⟨h.outputs, step_of_sameButStale hs h ht hv, (step_of_sameButStale hs h ht hv).outputs⟩

end Sys2Proof.Machine
end

section
/-! The width of `cnt` (10_state.md R17, R24), and the waveform of a transmission as data: its durations and its rising edges
(41_transmitter.md R96 to R98). -/

namespace Sys2Proof.Machine

/-! ### The width of the counter -/

theorem segmentUs_le_tGap {b : Block} {d : Nat} (h : b.segmentUs = some d) : d ≤ tGap := by
  unfold Block.segmentUs at h
  cases hst : b.st <;> rw [hst] at h
  case idle => cases h
  case dl =>
    obtain ⟨l, -, rfl⟩ := Option.map_eq_some_iff.mp h
    exact us_le_tGap l
  all_goals
    cases h
    decide

theorem cntW_le_iff {p : Params} (hp : p.wellFormed = true) (w : Nat) :
    10000 * p.cyclesPerUs - 1 < 2 ^ w ↔ cntW p ≤ w := by
  have hcycles : 1 ≤ p.cyclesPerUs := of_decide_eq_true hp
  exact (Nat.log2_lt (by omega)).symm

/-- Settles O48: the width is one more than the logarithm of the longest load, and no segment is longer than the gap. -/
theorem counterWidthIsLeast : Obligations.CounterWidthIsLeast := fun p hp =>
  ⟨cntW_le_iff hp, fun _ _ hd => load_fits p (segmentUs_le_tGap hd)⟩

/-! ### Durations (R98) -/

theorem waveUs_append (w w' : List Segment) : waveUs (w ++ w') = waveUs w + waveUs w' := by simp [waveUs]

theorem waveUs_dataWave (P : List LowPulse) : waveUs (dataWave P) = 275 * P.length + lowTime P := by
  induction P with
  | nil => rfl
  | cons d P ih =>
    have hcons : waveUs (dataWave (d :: P)) = tHigh + (d.us + waveUs (dataWave P)) := rfl
    have hlow : lowTime (d :: P) = d.us + lowTime P := rfl
    rw [hcons, hlow, ih, List.length_cons, tHigh]
    omega

/-- The two latches and the gap take 26075 µs. -/
theorem waveUs_repeatWave (P : List LowPulse) :
    waveUs (repeatWave P) = 26075 + 275 * P.length + lowTime P := by
  have hlead : waveUs [⟨true, l1High⟩, ⟨false, l1Low⟩, ⟨true, l2High⟩, ⟨false, l2Low⟩] = 13125 := rfl
  have htrail : waveUs [⟨true, l2High⟩, ⟨false, l2Low⟩, ⟨false, tGap⟩] = 12950 := rfl
  rw [repeatWave, waveUs_append, waveUs_append, waveUs_dataWave, hlead, htrail]
  omega

theorem waveUs_repeatWave_of_frame {p : Params} {i : Instr} {F : Frame} (h : frame p i = some F) :
    waveUs (repeatWave (expand F)) = if sendsDim i then 98925 else 91675 := by
  rw [waveUs_repeatWave, length_expand_of_frame h, lowTime_expand_of_frame h]
  split <;> rfl

theorem length_cycleLevels (p : Params) (w : List Segment) :
    (cycleLevels p w).length = p.cyclesPerUs * waveUs w := by
  induction w with
  | nil => rfl
  | cons g w ih =>
    have hcons : cycleLevels p (g :: w) = List.replicate (seg p g.us) g.level ++ cycleLevels p w := rfl
    have hus : waveUs (g :: w) = g.us + waveUs w := rfl
    rw [hcons, List.length_append, List.length_replicate, ih, hus, seg]
    ring

/-- Settles O46: a repeat's duration depends on the length and the low time, and its cycles are counted segment by segment. -/
theorem transmissionDurations : Obligations.TransmissionDurations := fun p i F h => by
  refine ⟨waveUs_repeatWave_of_frame h, ?_, length_cycleLevels p _⟩
  rw [waveCycles, wave, waveUs_append, waveUs_repeatWave_of_frame h]
  split <;> rfl

/-! ### Rising edges (R97) -/

theorem risingEdges_high_low (a b : Nat) (w : List Segment) :
    risingEdges (⟨true, a⟩ :: ⟨false, b⟩ :: w) = 1 + risingEdges w := by
  simp [risingEdges, Nat.add_comm]

theorem risingEdges_low (a : Nat) (w : List Segment) : risingEdges (⟨false, a⟩ :: w) = risingEdges w := by
  simp [risingEdges]

theorem risingEdges_dataWave_append (P : List LowPulse) (w : List Segment) :
    risingEdges (dataWave P ++ w) = P.length + risingEdges w := by
  induction P with
  | nil => simp [dataWave]
  | cons d P ih =>
    have hcons : dataWave (d :: P) ++ w = ⟨true, tHigh⟩ :: ⟨false, d.us⟩ :: (dataWave P ++ w) := rfl
    rw [hcons, risingEdges_high_low, ih, List.length_cons]
    omega

/-- A repeat ends with the line low, so its edges add up with those of what follows. -/
theorem risingEdges_repeatWave_append (P : List LowPulse) (w : List Segment) :
    risingEdges (repeatWave P ++ w) = P.length + 3 + risingEdges w := by
  have hshape : repeatWave P ++ w = ⟨true, l1High⟩ :: ⟨false, l1Low⟩ :: ⟨true, l2High⟩ :: ⟨false, l2Low⟩ ::
      (dataWave P ++ (⟨true, l2High⟩ :: ⟨false, l2Low⟩ :: ⟨false, tGap⟩ :: w)) := by
    simp [repeatWave]
  rw [hshape, risingEdges_high_low, risingEdges_high_low, risingEdges_dataWave_append, risingEdges_high_low,
    risingEdges_low]
  omega

theorem risingEdges_repeatWave (P : List LowPulse) : risingEdges (repeatWave P) = P.length + 3 := by
  have h := risingEdges_repeatWave_append P []
  rwa [List.append_nil] at h

/-- Settles O47: one rising edge for each data pulse and three for the latches, in each repeat. -/
theorem risingEdgesPerCommand : Obligations.RisingEdgesPerCommand := fun p i F h => by
  refine ⟨risingEdges_repeatWave _, ?_⟩
  rw [wave, risingEdges_repeatWave_append, risingEdges_repeatWave, length_expand_of_frame h]
  split <;> rfl

end Sys2Proof.Machine
end

section
/-! The host's directives (30_encoding.md section 4, 95_test_vectors.md section 3). -/

namespace Sys2Proof.Machine

/-! ### One edge of a move -/

theorem liveMoves_of_live {m : HostMove} (h : m.lastsNoEdge = false) (rest : List HostMove) :
    liveMoves (m :: rest) = m :: rest := by
  simp [liveMoves, h]

/-- A step leaves of the current move what `afterEdge` leaves. -/
theorem step_script_of_live {s t : State} {m : HostMove} {rest : List HostMove} (h : liveMoves s.script = m :: rest)
    (ht : step s = .next t) : t.script = (m.afterEdge s.accepts t.done).toList ++ rest := by
  obtain ⟨-, hscript, -⟩ := step_next_cases ht
  rw [hscript, scriptAfter, h]
  rfl

/-! ### Moves of `n` edges -/

/-- A family of moves that last as many edges as their number says, holding the pins `p`: `reset` and `idle`. -/
structure LastsEdges (move : Nat → HostMove) (p : Pins) : Prop where
  zero : (move 0).lastsNoEdge = true
  succ : ∀ n, (move (n + 1)).lastsNoEdge = false
  pins : ∀ n, (move n).pins = p
  afterEdge : ∀ n accepted done, (move (n + 1)).afterEdge accepted done = if n = 0 then none else some (move n)

theorem reset_lastsEdges : LastsEdges .reset { Pins.quiet with rst := true } :=
  ⟨rfl, fun _ => rfl, fun _ => rfl, fun n _ _ => by cases n <;> rfl⟩

theorem idle_lastsEdges : LastsEdges .idle Pins.quiet :=
  ⟨rfl, fun _ => rfl, fun _ => rfl, fun n _ _ => by cases n <;> rfl⟩

section LastsEdges

variable {move : Nat → HostMove} {p : Pins}

theorem LastsEdges.liveMoves_zero (hm : LastsEdges move p) (rest : List HostMove) :
    liveMoves (move 0 :: rest) = liveMoves rest := by
  simp [liveMoves, hm.zero]

/-- After one of its edges the host stands at the move of one edge less. -/
theorem step_of_lastsEdges (hm : LastsEdges move p) {s t : State} {rest : List HostMove} {n : Nat}
    (h : liveMoves s.script = move (n + 1) :: rest) (ht : step s = .next t) :
    liveMoves t.script = liveMoves (move n :: rest) := by
  rw [step_script_of_live h ht, hm.afterEdge]
  cases n with
  | zero => exact (hm.liveMoves_zero rest).symm
  | succ n => rfl

/-- By induction on the number of edges. -/
theorem runFor_of_lastsEdges (hm : LastsEdges move p) {s : State} {rest : List HostMove} {n : Nat}
    (h : liveMoves s.script = liveMoves (move n :: rest)) :
    (∀ k, k < n → ∃ t, runFor k s = some t ∧ t.pins = p) ∧
      ∃ t, runFor n s = some t ∧ liveMoves t.script = liveMoves rest := by
  induction n generalizing s with
  | zero => exact ⟨fun k hk => absurd hk k.not_lt_zero, s, rfl, h.trans (hm.liveMoves_zero rest)⟩
  | succ n ih =>
    rw [liveMoves_of_live (hm.succ n)] at h
    obtain ⟨u, hu⟩ := exists_next_step s
    obtain ⟨hpins, hend⟩ := ih (step_of_lastsEdges hm h hu)
    simp only [runFor_succ_of_step hu]
    refine ⟨fun k hk => ?_, hend⟩
    cases k with
    | zero => exact ⟨s, rfl, (pins_of_live h).trans (hm.pins _)⟩
    | succ k => rw [runFor_succ_of_step hu]; exact hpins k (Nat.lt_of_succ_lt_succ hk)

end LastsEdges

/-- Settles O60: `reset` and `idle` last the edges of their number, and `wait_done` ends at the edge that gives `done`. -/
theorem directivesLast : Obligations.DirectivesLast := by
  intro s rest
  refine ⟨fun n h => ?_, fun n h => ?_, fun h => ?_⟩
  · obtain ⟨hpins, hend⟩ := runFor_of_lastsEdges reset_lastsEdges h
    refine ⟨fun k hk => ?_, hend⟩
    obtain ⟨t, ht, hp⟩ := hpins k hk
    exact ⟨t, ht, by rw [hp]⟩
  · obtain ⟨hpins, hend⟩ := runFor_of_lastsEdges idle_lastsEdges h
    refine ⟨fun k hk => ?_, hend⟩
    obtain ⟨t, ht, hp⟩ := hpins k hk
    exact ⟨t, ht, by rw [hp]; rfl, by rw [hp]; rfl⟩
  · have hpins := pins_of_live h
    obtain ⟨t, ht⟩ := exists_next_step s
    refine ⟨by rw [hpins]; rfl, by rw [hpins]; rfl, t, ht, ?_⟩
    rw [step_script_of_live h ht]
    cases hd : t.done <;> simp [HostMove.afterEdge]

end Sys2Proof.Machine
end

section
/-! The waveform law (41_transmitter.md section 4): a transmission as the sequence of its sequencer states, played segment by
segment. -/

namespace Sys2Proof.Machine

/-! ### The phases of a transmission (R80, R81) -/

/-- A state of the sequencer with the duration of its segment in µs. -/
structure Phase where
  st : SeqState
  us : Nat

/-- The phases of the data pulses `P`. -/
def dataPhases (P : List LowPulse) : List Phase := P.flatMap fun d => [⟨.dh, tHigh⟩, ⟨.dl, d.us⟩]

/-- The phases of a repeat before its gap. -/
def repeatPhases (P : List LowPulse) : List Phase :=
  [⟨.l1h, l1High⟩, ⟨.l1l, l1Low⟩, ⟨.l2h, l2High⟩, ⟨.l2l, l2Low⟩] ++ dataPhases P ++ [⟨.th, l2High⟩, ⟨.tl, l2Low⟩]

/-- The phases of a transmission: the repeat and its gap, twice. -/
def phases (P : List LowPulse) : List Phase :=
  (repeatPhases P ++ [⟨.gap, tGap⟩]) ++ (repeatPhases P ++ [⟨.gap, tGap⟩])

/-- The state of the sequencer in each cycle. -/
def cycleStates (p : Params) (w : List Phase) : List SeqState :=
  w.flatMap fun g => List.replicate (seg p g.us) g.st

theorem cycleStates_append (p : Params) (w w' : List Phase) :
    cycleStates p (w ++ w') = cycleStates p w ++ cycleStates p w' := List.flatMap_append

theorem cycleStates_singleton (p : Params) (g : Phase) : cycleStates p [g] = List.replicate (seg p g.us) g.st :=
  List.flatMap_singleton _ g

/-- The waveform in which each phase has the level `f` gives its state. -/
def phaseWave (f : SeqState → Bool) (w : List Phase) : List Segment := w.map fun g => ⟨f g.st, g.us⟩

theorem phaseWave_append (f : SeqState → Bool) (w w' : List Phase) :
    phaseWave f (w ++ w') = phaseWave f w ++ phaseWave f w' := List.map_append

theorem phaseWave_dataPhases (f : SeqState → Bool) (P : List LowPulse) :
    phaseWave f (dataPhases P) = P.flatMap fun d => [⟨f .dh, tHigh⟩, ⟨f .dl, d.us⟩] := List.map_flatMap

theorem cycleLevels_phaseWave (p : Params) (f : SeqState → Bool) (w : List Phase) :
    cycleLevels p (phaseWave f w) = (cycleStates p w).map f := by
  simp [cycleLevels, phaseWave, cycleStates, List.flatMap_map, List.map_flatMap]

/-- The line has in each phase of a repeat the level of its state, and is low in the gap. -/
theorem repeatWave_eq_phaseWave (P : List LowPulse) :
    repeatWave P = phaseWave SeqState.level (repeatPhases P) ++ [⟨false, tGap⟩] := by
  rw [repeatPhases, phaseWave_append, phaseWave_append, phaseWave_dataPhases, List.append_assoc _ _ [_]]
  rfl

theorem wave_eq_phaseWave (P : List LowPulse) : wave P = phaseWave SeqState.level (phases P) := by
  rw [wave, repeatWave_eq_phaseWave, phases, phaseWave_append, phaseWave_append]
  rfl

theorem indicated_of_mem_repeatPhases {P : List LowPulse} : ∀ g ∈ repeatPhases P, g.st.indicated = true := by
  have hdata : ∀ g ∈ dataPhases P, g.st.indicated = true := fun g hg => by
    obtain ⟨d, -, hg⟩ := List.mem_flatMap.mp hg
    rcases List.mem_pair.mp hg with rfl | rfl <;> rfl
  simpa [repeatPhases, or_imp, forall_and, indicated_iff] using hdata

/-- The indicator is asserted in each phase of a repeat, and is off in the gap. -/
theorem repeatStatus_eq_phaseWave (p : Params) (P : List LowPulse) :
    repeatStatus p P = phaseWave (fun st => p.statusEn && st.indicated) (repeatPhases P) ++ [⟨false, tGap⟩] := by
  rw [repeatStatus, repeatWave_eq_phaseWave, List.dropLast_concat, phaseWave, phaseWave, List.map_map]
  congr 1
  refine List.map_congr_left fun g hg => ?_
  rw [indicated_of_mem_repeatPhases g hg, Bool.and_true]
  rfl

theorem statusWave_eq_phaseWave (p : Params) (P : List LowPulse) :
    statusWave p P = phaseWave (fun st => p.statusEn && st.indicated) (phases P) := by
  have hgap : phaseWave (fun st => p.statusEn && st.indicated) [⟨.gap, tGap⟩] = [⟨false, tGap⟩] := by
    simp [phaseWave, SeqState.indicated]
  rw [statusWave, repeatStatus_eq_phaseWave, phases, phaseWave_append, phaseWave_append, hgap]

/-- The transmission has the cycles of its waveform. -/
theorem length_cycleStates_phases (p : Params) (P : List LowPulse) :
    (cycleStates p (phases P)).length = waveCycles p P := by
  rw [waveCycles, ← length_cycleLevels, wave_eq_phaseWave, cycleLevels_phaseWave, List.length_map]

/-- No cycle of a transmission is `IDLE`. -/
theorem ne_idle_of_mem_cycleStates {p : Params} {P : List LowPulse} {st : SeqState}
    (h : st ∈ cycleStates p (phases P)) : st ≠ .idle := by
  have hrepeat : ∀ g ∈ repeatPhases P ++ [⟨.gap, tGap⟩], g.st ≠ .idle := by
    intro g hg
    rcases List.mem_append.mp hg with hg | hg
    · exact ((indicated_iff _).mp (indicated_of_mem_repeatPhases g hg)).1
    · rw [List.mem_singleton.mp hg]
      decide
  obtain ⟨g, hg, hst⟩ := List.mem_flatMap.mp h
  exact List.eq_of_mem_replicate hst ▸ hrepeat g (or_self_iff.mp (List.mem_append.mp hg))

/-! ### Playing a sequence of states -/

theorem noResetFor_of_le {m k : Nat} {s : State} (h : NoResetFor k s) (hle : m ≤ k) : NoResetFor m s :=
  fun j t hj => h j t (hj.trans_le hle)

theorem noResetFor_of_runFor {m k : Nat} {s t : State} (h : NoResetFor (m + k) s) (ht : runFor m s = some t) :
    NoResetFor k t := fun j u hj hu => h (m + j) u (Nat.add_lt_add_left hj m) (by rw [runFor_add, ht]; exact hu)

/-- From each state of `Q`, where no edge resets, the sequencer is in the states `L` in the next cycles, the state's own cycle
the first, and the cycle after them is in `R`. -/
def Plays (Q : State → Prop) (L : List SeqState) (R : State → Prop) : Prop :=
  ∀ s, Q s → NoResetFor L.length s →
    (∀ k st, L[k]? = some st → ∃ t, runFor k s = some t ∧ t.blk.st = st) ∧
    ∃ u, runFor L.length s = some u ∧ R u

theorem Plays.append {Q R S : State → Prop} {L M : List SeqState} (h : Plays Q L R) (h' : Plays R M S) :
    Plays Q (L ++ M) S := by
  intro s hs hn
  rw [List.length_append] at hn ⊢
  obtain ⟨hL, u, hu, hR⟩ := h s hs (noResetFor_of_le hn (Nat.le_add_right _ _))
  obtain ⟨hM, v, hv, hS⟩ := h' u hR (noResetFor_of_runFor hn hu)
  refine ⟨fun k st hk => ?_, v, by rw [runFor_add, hu]; exact hv, hS⟩
  by_cases hlt : k < L.length
  · rw [List.getElem?_append_left hlt] at hk
    exact hL k st hk
  · rw [List.getElem?_append_right (Nat.not_lt.mp hlt)] at hk
    obtain ⟨t, ht, hst⟩ := hM _ st hk
    refine ⟨t, ?_, hst⟩
    rw [← Nat.add_sub_cancel' (Nat.not_lt.mp hlt), runFor_add, hu]
    exact ht

/-- A phase and those after it. -/
theorem Plays.cons {p : Params} {Q R S : State → Prop} {g : Phase} {w : List Phase} (h : Plays Q (cycleStates p [g]) R)
    (h' : Plays R (cycleStates p w) S) : Plays Q (cycleStates p (g :: w)) S :=
  cycleStates_append p [g] w ▸ h.append h'

/-- One cycle, from what the step does. -/
theorem plays_singleton {Q R : State → Prop} {st : SeqState} (hst : ∀ s, Q s → s.blk.st = st)
    (hstep : ∀ s, Q s → s.pins.rst = false → ∃ t, step s = .next t ∧ R t) : Plays Q [st] R := by
  intro s hs hn
  obtain ⟨t, ht, hR⟩ := hstep s hs (hn 0 s Nat.one_pos rfl)
  refine ⟨fun k st' hk => ?_, t, runFor_succ_of_step ht 0, hR⟩
  cases k with
  | zero => cases hk; exact ⟨s, rfl, hst s hs⟩
  | succ k => cases hk

/-! ### Segments -/

/-- The machine sends `P`: it is in the state `st` of repeat `rep`, with `cnt` at `c`, and with `idx` at `j` where the index is
meaningful. -/
structure Sending (p : Params) (P : List LowPulse) (rep : BitVec 1) (st : SeqState) (j c : Nat) (s : State) : Prop where
  params : s.params = p
  rep : s.blk.rep = rep
  seq : s.blk.st = st
  idx : st.isData = true → s.blk.idx.toNat = j
  cnt : s.blk.cnt = c
  len : s.blk.len = P.length
  entries : ∀ i, i < P.length → PulseBuffer.read s.blk.buf i = P[i]?

/-- The last transmission has ended in this cycle. -/
structure Finished (s : State) : Prop where
  seq : s.blk.st = .idle
  doneR : s.blk.doneR = true

section Segments

variable {p : Params} {P : List LowPulse} {rep : BitVec 1} {seq : SeqState} {j : Nat}

/-- A counting edge stays in the segment. -/
theorem Sending.count {c : Nat} {s : State} (h : Sending p P rep seq j (c + 1) s) (hb : seq ≠ .idle)
    (hr : s.pins.rst = false) : ∃ t, step s = .next t ∧ Sending p P rep seq j c t := by
  obtain ⟨t, ht, hp, hblk⟩ := counterCountsDown s hr (h.seq ▸ hb) (by rw [h.cnt]; exact c.succ_ne_zero)
  refine ⟨t, ht, ?_⟩
  constructor
  case params => rw [hp, h.params]
  all_goals rw [hblk]
  exacts [h.rep, h.seq, h.idx, by rw [h.cnt, Nat.add_sub_cancel], h.len, h.entries]

/-- A segment plays its state until its counter is 0, and then as its last edge says. -/
theorem plays_counting {R : State → Prop} (hb : seq ≠ .idle)
    (hlast : ∀ s, Sending p P rep seq j 0 s → s.pins.rst = false → ∃ t, step s = .next t ∧ R t) (c : Nat) :
    Plays (Sending p P rep seq j c) (List.replicate (c + 1) seq) R := by
  induction c with
  | zero => exact plays_singleton (fun _ h => h.seq) hlast
  | succ c ih => exact (plays_singleton (fun _ h => h.seq) fun _ h hr => h.count hb hr).append ih

/-- A segment of `d` µs takes `seg(d)` cycles, and ends with the edge that ticks at 0. -/
theorem plays_segment (hp : p.wellFormed = true) {R : State → Prop} {d : Nat} (hd : 1 ≤ d) (hb : seq ≠ .idle)
    (hlast : ∀ s t, Sending p P rep seq j 0 s → t.params = s.params → t.blk = s.tick.blk → R t) :
    Plays (Sending p P rep seq j (seg p d - 1)) (cycleStates p [⟨seq, d⟩]) R := by
  rw [cycleStates_singleton]
  have hstep : ∀ s, Sending p P rep seq j 0 s → s.pins.rst = false → ∃ t, step s = .next t ∧ R t := fun s h hr => by
    obtain ⟨t, ht, hparams, hblk⟩ := step_of_busy hr (h.seq ▸ hb)
    exact ⟨t, ht, hlast s t h hparams hblk⟩
  have hcycles := plays_counting hb hstep (seg p d - 1)
  rwa [Nat.sub_add_cancel (seg_pos hp hd)] at hcycles

/-- A segment that ends with a row of the transition table other than the last. -/
theorem plays_move (hp : p.wellFormed = true) {d d' j' : Nat} {rep' : BitVec 1} {seq' : SeqState} (hd : 1 ≤ d)
    (hb : seq ≠ .idle)
    (hrow : ∀ s, Sending p P rep seq j 0 s → ∃ idx, s.tick.blk = s.blk.movedTo s.params seq' d' idx rep' ∧
      (seq'.isData = true → idx.toNat = j')) :
    Plays (Sending p P rep seq j (seg p d - 1)) (cycleStates p [⟨seq, d⟩]) (Sending p P rep' seq' j' (seg p d' - 1)) := by
  refine plays_segment hp hd hb fun s t h hparams hblk => ?_
  obtain ⟨idx, e, hidx⟩ := hrow s h
  constructor
  case params => rw [hparams, h.params]
  all_goals rw [hblk, e]
  exacts [rfl, rfl, hidx, by rw [← h.params]; rfl, h.len, h.entries]

/-! ### A repeat -/

/-- The latches before the data. -/
theorem plays_leading (hp : p.wellFormed = true) :
    Plays (Sending p P rep .l1h j (seg p l1High - 1))
      (cycleStates p [⟨.l1h, l1High⟩, ⟨.l1l, l1Low⟩, ⟨.l2h, l2High⟩, ⟨.l2l, l2Low⟩])
      (Sending p P rep .dh 0 (seg p tHigh - 1)) := by
  have h1 : Plays (Sending p P rep .l1h j (seg p l1High - 1)) (cycleStates p [⟨.l1h, l1High⟩])
      (Sending p P rep .l1l j (seg p l1Low - 1)) := plays_move hp (by decide) (by decide) fun s h =>
    ⟨s.blk.idx, by simpa [h.seq, h.cnt, h.rep] using tick_cases s, nofun⟩
  have h2 : Plays (Sending p P rep .l1l j (seg p l1Low - 1)) (cycleStates p [⟨.l1l, l1Low⟩])
      (Sending p P rep .l2h j (seg p l2High - 1)) := plays_move hp (by decide) (by decide) fun s h =>
    ⟨s.blk.idx, by simpa [h.seq, h.cnt, h.rep] using tick_cases s, nofun⟩
  have h3 : Plays (Sending p P rep .l2h j (seg p l2High - 1)) (cycleStates p [⟨.l2h, l2High⟩])
      (Sending p P rep .l2l j (seg p l2Low - 1)) := plays_move hp (by decide) (by decide) fun s h =>
    ⟨s.blk.idx, by simpa [h.seq, h.cnt, h.rep] using tick_cases s, nofun⟩
  have h4 : Plays (Sending p P rep .l2l j (seg p l2Low - 1)) (cycleStates p [⟨.l2l, l2Low⟩])
      (Sending p P rep .dh 0 (seg p tHigh - 1)) := plays_move hp (by decide) (by decide) fun s h =>
    ⟨0, by simpa [h.seq, h.cnt, h.rep] using tick_cases s, fun _ => rfl⟩
  exact h1.cons (h2.cons (h3.cons h4))

/-- The high interval before entry `j` is followed by the low interval of that entry. -/
theorem plays_dh (hp : p.wellFormed = true) {d : LowPulse} (hd : P[j]? = some d) :
    Plays (Sending p P rep .dh j (seg p tHigh - 1)) (cycleStates p [⟨.dh, tHigh⟩])
      (Sending p P rep .dl j (seg p d.us - 1)) := by
  refine plays_move hp (by decide) (by decide) fun s h => ⟨s.blk.idx, ?_, fun _ => h.idx rfl⟩
  have hread : PulseBuffer.read s.blk.buf s.blk.idx.toNat = some d := by
    rw [h.idx rfl, h.entries j (List.getElem?_eq_some_iff.mp hd).1, hd]
  have hin : s.blk.idx.toNat < 72 := by
    rw [← Nat.not_le, ← read_eq_none_iff s.blk.buf, hread]
    exact Option.some_ne_none d
  simpa [h.seq, h.cnt, h.rep, hread, hin.not_ge] using tick_cases s

/-- An entry that is not the last is followed by the next. -/
theorem plays_dl_next (hp : p.wellFormed = true) {d : LowPulse} (hj : j + 1 < P.length) :
    Plays (Sending p P rep .dl j (seg p d.us - 1)) (cycleStates p [⟨.dl, d.us⟩])
      (Sending p P rep .dh (j + 1) (seg p tHigh - 1)) := by
  refine plays_move hp (us_pos d) (by decide) fun s h => ?_
  have hlt : s.blk.idx.toNat + 1 < s.blk.len := by rwa [h.idx rfl, h.len]
  exact ⟨s.blk.idx + 1, by simpa [h.seq, h.cnt, h.rep, hlt] using tick_cases s,
    fun _ => by rw [toNat_idx_succ hlt, h.idx rfl]⟩

/-- The last entry is followed by the trailing latch. -/
theorem plays_dl_last (hp : p.wellFormed = true) {d : LowPulse} (hj : j + 1 = P.length) :
    Plays (Sending p P rep .dl j (seg p d.us - 1)) (cycleStates p [⟨.dl, d.us⟩])
      (Sending p P rep .th 0 (seg p l2High - 1)) := by
  refine plays_move hp (us_pos d) (by decide) fun s h => ?_
  have hlast : ¬ s.blk.idx.toNat + 1 < s.blk.len := by
    rw [h.idx rfl, h.len, hj]
    exact lt_irrefl _
  exact ⟨s.blk.idx, by simpa [h.seq, h.cnt, h.rep, hlast] using tick_cases s, nofun⟩

theorem drop_eq_cons {d : LowPulse} {rest : List LowPulse} (h : P.drop j = d :: rest) :
    P[j]? = some d ∧ P.length = j + rest.length + 1 ∧ P.drop (j + 1) = rest := by
  have hlen := congrArg List.length h
  rw [List.length_drop, List.length_cons] at hlen
  refine ⟨?_, by omega, by rw [← List.tail_drop, h, List.tail_cons]⟩
  rw [← Nat.add_zero j, ← List.getElem?_drop, h, List.getElem?_cons_zero]

/-- From entry `j` on the data pulses are played to the last, by induction on what is left of them. -/
theorem plays_data (hp : p.wellFormed = true) {d : LowPulse} {rest : List LowPulse} (hrest : P.drop j = d :: rest) :
    Plays (Sending p P rep .dh j (seg p tHigh - 1)) (cycleStates p (dataPhases (d :: rest)))
      (Sending p P rep .th 0 (seg p l2High - 1)) := by
  induction rest generalizing j d with
  | nil =>
    obtain ⟨hd, hlen, -⟩ := drop_eq_cons hrest
    exact (plays_dh hp hd).cons (plays_dl_last hp hlen.symm)
  | cons d' rest ih =>
    obtain ⟨hd, hlen, hnext⟩ := drop_eq_cons hrest
    rw [List.length_cons] at hlen
    exact (plays_dh hp hd).cons ((plays_dl_next hp (by omega)).cons (ih hnext))

/-- The trailing latch. -/
theorem plays_trailing (hp : p.wellFormed = true) :
    Plays (Sending p P rep .th j (seg p l2High - 1)) (cycleStates p [⟨.th, l2High⟩, ⟨.tl, l2Low⟩])
      (Sending p P rep .gap j (seg p tGap - 1)) := by
  have h1 : Plays (Sending p P rep .th j (seg p l2High - 1)) (cycleStates p [⟨.th, l2High⟩])
      (Sending p P rep .tl j (seg p l2Low - 1)) := plays_move hp (by decide) (by decide) fun s h =>
    ⟨s.blk.idx, by simpa [h.seq, h.cnt, h.rep] using tick_cases s, nofun⟩
  have h2 : Plays (Sending p P rep .tl j (seg p l2Low - 1)) (cycleStates p [⟨.tl, l2Low⟩])
      (Sending p P rep .gap j (seg p tGap - 1)) := plays_move hp (by decide) (by decide) fun s h =>
    ⟨s.blk.idx, by simpa [h.seq, h.cnt, h.rep] using tick_cases s, nofun⟩
  exact h1.cons h2

theorem plays_repeat (hp : p.wellFormed = true) (hP : P ≠ []) :
    Plays (Sending p P rep .l1h j (seg p l1High - 1)) (cycleStates p (repeatPhases P))
      (Sending p P rep .gap 0 (seg p tGap - 1)) := by
  obtain ⟨d, rest, hcons⟩ := List.exists_cons_of_ne_nil hP
  have hdata := plays_data (rep := rep) (j := 0) hp (hcons ▸ rfl : P.drop 0 = d :: rest)
  rw [← hcons] at hdata
  rw [repeatPhases, cycleStates_append, cycleStates_append]
  exact ((plays_leading hp).append hdata).append (plays_trailing hp)

end Segments

/-! ### A transmission -/

theorem plays_phases {p : Params} {P : List LowPulse} (hp : p.wellFormed = true) (hP : P ≠ []) :
    Plays (Sending p P 0 .l1h 0 (seg p l1High - 1)) (cycleStates p (phases P)) Finished := by
  have hgap : Plays (Sending p P 0 .gap 0 (seg p tGap - 1)) (cycleStates p [⟨.gap, tGap⟩])
      (Sending p P 1 .l1h 0 (seg p l1High - 1)) := plays_move hp (by decide) (by decide) fun s h =>
    ⟨s.blk.idx, by simpa [h.seq, h.cnt, h.rep] using tick_cases s, nofun⟩
  have hend : Plays (Sending p P 1 .gap 0 (seg p tGap - 1)) (cycleStates p [⟨.gap, tGap⟩]) Finished := by
    refine plays_segment hp (by decide) (by decide) fun s t h _ hblk => ?_
    have e : s.tick.blk = { s.blk.pulseDone with st := .idle } := by simpa [h.seq, h.cnt, h.rep] using tick_cases s
    rw [e] at hblk
    exact ⟨by rw [hblk], by rw [hblk]; rfl⟩
  rw [phases, cycleStates_append, cycleStates_append]
  exact ((plays_repeat hp hP).append hgap).append ((plays_repeat hp hP).append hend)

/-- The edge that accepts a valid command begins to send its pulse sequence. -/
theorem step_begins_sending {s : State} {i : Instr} {F : Frame} (hr : s.pins.rst = false) (hi : s.blk.st = .idle)
    (hpres : s.presented = some i) (hf : frame s.params i = some F) :
    ∃ t, step s = .next t ∧ Sending s.params (expand F) 0 .l1h 0 (seg s.params l1High - 1) t := by
  have honIdle : onIdle s = s.accept (sendsDim i) F := by rw [onIdle, hpres]; simp only [onAcceptance, hf]
  have hedge : s.edge onIdle = .next (s.accept (sendsDim i) F) := by rw [edge_of_idle hr hi, honIdle]
  refine ⟨_, step_of_edge hedge, rfl, ?_, ?_, nofun, ?_, accept_len hf, fun j hj => ?_⟩
  · exact congrArg Block.rep (accept_blk _ F s)
  · exact congrArg Block.st (accept_blk _ F s)
  · exact congrArg Block.cnt (accept_blk _ F s)
  · exact (read_accept_of_frame hf j).trans (if_pos hj)

/-- The cycles after the acceptance of a valid command, up to the cycle in which its transmission has ended. -/
theorem transmission_cycles {s : State} {i : Instr} {F : Frame} (hp : s.params.wellFormed = true) (hi : s.blk.st = .idle)
    (hpres : s.presented = some i) (hf : frame s.params i = some F)
    (hn : NoResetFor (waveCycles s.params (expand F) + 1) s) :
    (∀ k st, (cycleStates s.params (phases (expand F)))[k]? = some st →
      ∃ t, runFor (k + 1) s = some t ∧ t.blk.st = st) ∧
    ∃ u, runFor (waveCycles s.params (expand F) + 1) s = some u ∧ Finished u := by
  have hP : expand F ≠ [] := by
    rw [← List.length_pos_iff, length_expand_of_frame hf]
    split <;> decide
  obtain ⟨t, ht, hsending⟩ := step_begins_sending (hn 0 s (Nat.succ_pos _) rfl) hi hpres hf
  rw [← length_cycleStates_phases, Nat.add_comm] at hn
  have hplays := plays_phases hp hP t hsending (noResetFor_of_runFor hn (runFor_succ_of_step ht 0))
  rw [length_cycleStates_phases] at hplays
  simpa only [runFor_succ_of_step ht] using hplays

/-- Each cycle of the transmission has its state, which is not `IDLE`. -/
theorem transmission_cycle {s : State} {i : Instr} {F : Frame} (hp : s.params.wellFormed = true) (hi : s.blk.st = .idle)
    (hpres : s.presented = some i) (hf : frame s.params i = some F)
    (hn : NoResetFor (waveCycles s.params (expand F) + 1) s) {k : Nat} (hk : k < waveCycles s.params (expand F)) :
    ∃ t, runFor (k + 1) s = some t ∧ t.blk.st ≠ .idle ∧
      (cycleStates s.params (phases (expand F)))[k]? = some t.blk.st := by
  rw [← length_cycleStates_phases] at hk
  obtain ⟨t, ht, hst⟩ := (transmission_cycles hp hi hpres hf hn).1 k _ (List.getElem?_eq_getElem hk)
  exact ⟨t, ht, hst ▸ ne_idle_of_mem_cycleStates (List.getElem_mem hk), hst ▸ List.getElem?_eq_getElem hk⟩

/-- Settles O43: the line and the indicator are functions of the sequencer's state, whose course `transmission_cycles` gives. -/
theorem transmissionPlaysWave : Obligations.TransmissionPlaysWave := by
  intro s i F hp hi hpres hf hn
  refine ⟨fun k hk => ?_, ?_⟩
  · obtain ⟨t, ht, hb, hst⟩ := transmission_cycle hp hi hpres hf hn hk
    refine ⟨t, ht, ?_, ?_, (irqMask_iff t).mpr hb, (busy_iff t).mpr hb⟩
    · rw [wave_eq_phaseWave, cycleLevels_phaseWave, List.getElem?_map, hst]
      rfl
    · rw [statusWave_eq_phaseWave, cycleLevels_phaseWave, List.getElem?_map, hst, State.status, parametersFixed _ s t ht]
      rfl
  · obtain ⟨-, u, hu, hidle, hdone⟩ := transmission_cycles hp hi hpres hf hn
    obtain ⟨htx, -, hmask, hbusy⟩ := outputs_of_idle hidle
    exact ⟨u, hu, hidle, htx, hmask, hbusy, hdone⟩

/-- Settles O44: the cycles of the transmission are busy, and the cycle after them is `IDLE`. -/
theorem nextAcceptanceAfterDone : Obligations.NextAcceptanceAfterDone := by
  intro s t i F k hp hacc hpres hf hn ht hk
  obtain ⟨-, hi, -⟩ := (accepts_iff s).mp hacc
  refine ⟨fun hkT => ?_, fun hkT => ?_⟩
  · obtain ⟨k, rfl⟩ := Nat.exists_eq_succ_of_ne_zero (Nat.ne_of_gt hk)
    obtain ⟨u, hu, hb, -⟩ := transmission_cycle hp hi hpres hf hn hkT
    cases hu.symm.trans ht
    exact accepts_of_busy hb
  · subst hkT
    obtain ⟨-, u, hu, hidle, -⟩ := transmission_cycles hp hi hpres hf hn
    cases hu.symm.trans ht
    rw [accepts_iff, and_iff_right hidle]

end Sys2Proof.Machine
end
